-- ==== Sys2Proof/Word.lean ====
section
/-! DEFINITION. The word types: an octet, a 16-bit field and a 32-bit register (00_scope R6: KIND_BITS,
TYPE_BITS, REG_BITS). Every quantity is unsigned; widening is by zero (R11). -/

namespace Sys2Proof

/-- One byte of a buffer, a frame or a packet (R8, R10). -/
abbrev Byte := BitVec 8

/-- A 16-bit unsigned field: the packet `type`, the section length, an image's payload length (R6). -/
abbrev Half := BitVec 16

/-- The content of one register (R6 REG_BITS, R14). -/
abbrev Word := BitVec 32

end Sys2Proof
end

