-- ==== Sys2Proof/Syntax.lean ====
section
/-! DEFINITION. The command set (30_encoding R67): one constructor per row of spec/opcode_table.json. A command
word has no fields, so no constructor has an operand; operands come from registers and IBUF (R70). -/

namespace Sys2Proof

/-- The seven commands of R67. -/
inductive Instr where
  /-- Completes with no error and no result (R94). -/
  | nop
  /-- Packet image in IBUF and TYPE_IN to a frame in OBUF (R112). -/
  | frameEncode
  /-- Frame in IBUF to a packet image in OBUF and TYPE_OUT (R117). -/
  | frameDecode
  /-- LEN_IN to a length field in LEN_WIN_OUT (R99). -/
  | lenEncode
  /-- Length field in LEN_WIN_IN to LEN_OUT (R100). -/
  | lenDecode
  /-- CRC-32 of IBUF[0..IN_LEN) to CRC_OUT (R106). -/
  | crc32Gen
  /-- Verify a trailing little-endian CRC-32 in IBUF (R107). -/
  | crc32Check
  deriving DecidableEq, Repr

end Sys2Proof
end

