-- ==== Sys2Proof/Decode.lean ====
section
/-! DEFINITION. The decoder of command words and, after it, the encoder (30_encoding R67, R68, R69): a command is
one 32-bit word, and all 32 bits select it. -/

namespace Sys2Proof

/-- Why a word is no command. -/
inductive DecodeReject where
  /-- The word is reserved (R68); written to CMD it still completes, as R95 says. -/
  | reservedCommand (word : Word)
  deriving DecidableEq, Repr

/-- The rows of R67: word and command. -/
def commandTable : List (Word × Instr) :=
  [ (0x00000000#32, .nop),
    (0x00000001#32, .frameEncode),
    (0x00000002#32, .frameDecode),
    (0x00000003#32, .lenEncode),
    (0x00000004#32, .lenDecode),
    (0x00000005#32, .crc32Gen),
    (0x00000006#32, .crc32Check) ]

/-- Command word w is the row whose word equals w, mask 0xFFFFFFFF; every other word is reserved (R67, R68). -/
def decode (w : Word) : Except DecodeReject Instr :=
  match commandTable.lookup w with
  | some i => .ok i
  | none => .error (.reservedCommand w)

/-- The word of a command (R67). -/
def encode : Instr → Word
  | .nop => 0x00000000#32
  | .frameEncode => 0x00000001#32
  | .frameDecode => 0x00000002#32
  | .lenEncode => 0x00000003#32
  | .lenDecode => 0x00000004#32
  | .crc32Gen => 0x00000005#32
  | .crc32Check => 0x00000006#32

/-- The command word that a table word of `nbits` bits stands for. A command is one 32-bit word (R69), so more
than 32 bits are no command word, and the bits above `nbits` are zero. -/
def tableWord (nbits w : Nat) : Option Word :=
  if nbits ≤ 32 then some (BitVec.ofNat 32 (w % 2 ^ nbits)) else none

/-- The command the decoder reads from a word numbered as spec/opcode_table.json numbers it. A command is taken
from the value of the CMD write, not from memory (20_memory R65), so there is no byte order to undo (R46). -/
def decodeTableWord (nbits w : Nat) : Option Instr :=
  match tableWord nbits w with
  | none => none
  | some word =>
    match decode word with
    | .ok i => some i
    | .error _ => none

end Sys2Proof
end

