-- ==== Sys2Proof/Config.lean ====
section
/-! DEFINITION. What one implementation fixes (00_scope R6) and the free values the spec leaves open. A constant
with a body is a number the spec states; an `opaque` constant has no body, so nothing can be proved of its value. -/

namespace Sys2Proof.Config

/-- ID_VALUE, the ASCII bytes "HDFC" (R6, R15). -/
def idValue : Word := 0x48444643#32

/-- IBUF_BYTES (R6, R35). -/
abbrev ibufBytes : Nat := 131072

/-- OBUF_BYTES (R6, R36). -/
abbrev obufBytes : Nat := 131072

/-- MAX_SECTION, the largest section length (R6). -/
abbrev maxSection : Nat := 65535

/-- MAX_VARLEN, the largest payload length a length field can carry (R6, R77). -/
abbrev maxVarlen : Nat := 32767

/-- LEN_WINDOW, the only legal window size in bytes (R6, R79). -/
abbrev lenWindow : Nat := 2

/-- MIN_FRAME, the shortest frame in bytes (R6, R74). -/
abbrev minFrame : Nat := 8

/-- ENGINE_WINDOW, the bytes of address space of one engine (R6, R41). -/
abbrev engineWindow : Nat := 0x80000

/-- OPEN (R6, D24): the engines a platform has beside engine 0. Log entry 2. -/
opaque extraEngines : Nat

/-- NUM_ENGINES, at least 1 (R6, R137). -/
def numEngines : Nat := extraEngines + 1

/-- OPEN (R6, D2): which multiple of ENGINE_WINDOW engine 0's window starts at. Log entry 2. -/
opaque engineBaseIndex : Nat

/-- ENGINE_BASE, a multiple of 0x80000 (R6, R43). -/
def engineBase : Nat := engineBaseIndex * engineWindow

/-- FREE VALUE: what a host read of a result register or of OBUF returns while the engine is busy, one for each
draw (R148, U4). Log entry 3. -/
opaque busyRead : Nat → Word

/-- FREE VALUE: what the pending command reads from an input register that was written while it was pending: the
draw, then the register's number (R147). Log entry 4. -/
opaque hazardWord : Nat → Nat → Word

/-- FREE VALUE: what the pending command reads from an IBUF cell that was written while it was pending: the draw,
then the cell's index (R147). Log entry 4. -/
opaque hazardByte : Nat → Nat → Byte

end Sys2Proof.Config
end

