-- ==== Sys2Proof/Machine/Bus.lean ====
section
/-! DEFINITION. What the agents outside the engines do: host transactions (30_encoding R83), the host script and its
pseudo-instructions (R84, R85), bus responses, and the turns of host, engines and reset source (00_scope R7). -/

namespace Sys2Proof.Machine

/-- The width of a host access: 1, 2 or 4 bytes (R46, R83). -/
inductive AccessSize where
  | one | two | four
  deriving DecidableEq, Repr

/-- The width in bytes. -/
def AccessSize.bytes : AccessSize → Nat
  | .one => 1
  | .two => 2
  | .four => 4

/-- The value of a host write, as wide as the access: `size*8` bits (R83). -/
inductive WriteData where
  | byte (v : Byte)
  | half (v : Half)
  | word (v : Word)
  deriving DecidableEq, Repr

/-- The width of a write. -/
def WriteData.size : WriteData → AccessSize
  | .byte _ => .one
  | .half _ => .two
  | .word _ => .four

/-- The direction, width and written value of a transaction (R83). -/
inductive Access where
  | read (size : AccessSize)
  | write (data : WriteData)
  deriving DecidableEq, Repr

/-- The width of an access. -/
def Access.size : Access → AccessSize
  | .read n => n
  | .write d => d.size

/-- A host transaction in one engine's window: R83's tuple, less the returned value, which is a `Response`. -/
structure Transaction where
  off : BitVec 19
  access : Access
  deriving DecidableEq, Repr

/-- How a host access ends (R44 to R53, R133). -/
inductive Response where
  /-- A read's value, the cells or the register, zero-extended to 32 bits (R11, R46). -/
  | data (value : Word)
  /-- A write that completed. -/
  | written
  /-- The bus error response (R133); a read returns no data (R44). -/
  | busError
  /-- A read of a cell that holds no value: the model gives it none (R53, U1). -/
  | noValue
  deriving DecidableEq, Repr

/-- A statement of a host script (R84). Names and labels are numbered. -/
inductive Stmt where
  /-- `W8`, `W16`, `W32 off, value`. -/
  | write (off : BitVec 19) (data : WriteData)
  /-- `R8`, `R16`, `R32 off -> name`. -/
  | read (size : AccessSize) (off : BitVec 19) (name : Nat)
  /-- `BEQ name, mask, value, label`. -/
  | beq (name : Nat) (mask value : Word) (label : Nat)
  /-- `BNE name, mask, value, label`. -/
  | bne (name : Nat) (mask value : Word) (label : Nat)
  /-- `; ...` -/
  | comment
  deriving DecidableEq, Repr

/-- A script line with the label, if any, that names it (R84). -/
structure ScriptLine where
  label : Option Nat
  stmt : Stmt
  deriving DecidableEq, Repr

/-- The pseudo-instructions of R85. -/
inductive Pseudo where
  /-- `CMD mnemonic`. -/
  | cmd (i : Instr)
  /-- `WAITDONE`, with the name `s` it reads into and its fresh label. -/
  | waitDone (name label : Nat)
  /-- `ACK`. -/
  | ack
  /-- `LOADI i, b0 ... bm`. -/
  | loadI (start : Nat) (bytes : List Byte)
  /-- `SETWIN size, b0, b1`. -/
  | setWin (size b0 b1 : Byte)
  deriving DecidableEq, Repr

/-- Which agent acts next, and what it does (R7): the run's inputs, chosen outside the machine (U11). -/
inductive Turn where
  /-- The host issues a transaction in an engine's window. -/
  | host (engine : Nat) (t : Transaction)
  /-- The host issues an access at a platform address (R43). -/
  | bus (addr : Nat) (access : Access)
  /-- The host runs the next line of its script (R84). -/
  | script
  /-- An engine takes its perform step (R89). -/
  | perform (engine : Nat)
  /-- The reset source acts (R140). -/
  | reset
  deriving DecidableEq, Repr

end Sys2Proof.Machine
end

