-- ==== Sys2Proof/Machine/State.lean ====
section
/-! DEFINITION. The state of FRAMECODEC as plain data (10_state): the engines with their registers and buffers, the
model fault set, and the agents outside the engines. -/

namespace Sys2Proof.Machine

/-- A buffer (R35, R36): the cells that hold a value, indices strictly rising; an unlisted cell holds no value. -/
abbrev Memory := List Host.Cell

/-- The canonical form of a buffer: indices strictly rising. An unlisted cell holds no value, so no entry can equal
what an unlisted cell reads as. -/
abbrev Memory.wf (m : Memory) : Prop := m.Pairwise (fun x y => x.1 < y.1)

/-- The error kinds 1 to 7 of STATUS.ERR (60_exceptions R122). -/
inductive ErrorKind where
  | truncatedInput
  | invalidChecksum
  | lengthEncodingUnsupported
  | invalidLengthBufferSize
  | imageMalformed
  | badCommand
  | paramRange
  deriving DecidableEq, Repr

/-- The error causes of STATUS.CAUSE other than 0 (60_exceptions R123). -/
inductive ErrorCause where
  | frameShort
  | crcMismatch
  | sectionLenMismatch
  | blockOverrun
  | checkShort
  | payloadTooLong
  | sectionTooLong
  | windowSize
  | recordHeaderShort
  | recordPayloadShort
  | reservedCommand
  | inLenRange
  deriving DecidableEq, Repr

/-- STATUS, less its reserved bits, which read as zero (R17). `none` in `err` and `cause` is the code 0. -/
structure Status where
  busy : Bool
  done : Bool
  rejected : Bool
  err : Option ErrorKind
  cause : Option ErrorCause
  deriving DecidableEq, Repr

/-- The input registers IN_LEN, TYPE_IN, LEN_IN and LEN_WIN_IN (R14, R20 to R23), less the reserved bits, which
read as zero. -/
structure InputRegs where
  inLen : Word
  typeIn : Half
  lenIn : Word
  winB0 : Byte
  winB1 : Byte
  winSize : Byte
  deriving DecidableEq, Repr

/-- The result registers OUT_LEN, TYPE_OUT, BLOCK_COUNT, LEN_OUT, LEN_WIN_OUT, LEN_CONSUMED and CRC_OUT (R14, R24 to
R30), less the reserved bits, which read as zero. -/
structure ResultRegs where
  outLen : Word
  typeOut : Half
  blockCount : Word
  lenOut : Word
  winOutB0 : Byte
  winOutB1 : Byte
  lenConsumed : BitVec 2
  crcOut : Word
  deriving DecidableEq, Repr

/-- What the host wrote while the command was pending (R147). The pending command reads free values there. -/
structure Hazard where
  inLen : Bool
  typeIn : Bool
  lenIn : Bool
  lenWinIn : Bool
  cells : List Nat
  deriving DecidableEq, Repr

/-- The state of one engine (R13). ID is hard-wired (R15) and the IRQ line is computed (R39), so neither is stored;
the pending command (R38) is `cmd` while `status.busy`. -/
structure Engine where
  /-- CMD: the last accepted command word (R16). -/
  cmd : Word
  /-- STATUS (R17). -/
  status : Status
  /-- IRQ_EN.DONE_IE (R19). -/
  doneIe : Bool
  /-- The input registers. -/
  inputs : InputRegs
  /-- The result registers. -/
  results : ResultRegs
  /-- IBUF (R35). -/
  ibuf : Memory
  /-- OBUF (R36). -/
  obuf : Memory
  /-- The engine read a cell with no value and has no further step (R93). -/
  stuck : Bool
  /-- The inputs written while busy (R147). -/
  hazard : Hazard
  deriving DecidableEq, Repr

/-- The model faults of 60_exceptions R134. They are recorded in `State.faults` and the machine goes on; NO step
answers `Host.Outcome.fault` (log entry 5). -/
inductive Fault where
  /-- Recorded by a host read of a cell that holds no value (R53) and by a command that would read one (R93). Safe:
  the read gives no value and the command never completes. -/
  | uninitRead
  /-- Recorded by a host write of an input register or of IBUF while busy (R147). The values the pending command
  reads there are free (log entry 4 says where this is unsafe). -/
  | hostHazard
  deriving DecidableEq, Repr

/-- The model fault set (R40): never cleared, read by no host access. -/
structure FaultSet where
  uninitRead : Bool
  hostHazard : Bool
  deriving DecidableEq, Repr

/-- Why a turn has no meaning. -/
inductive Refusal where
  /-- A command that has no meaning yet. Raised by no arm of this model. -/
  | notModelled (mnemonic : String)
  /-- A turn names an engine the platform does not have (R43). Raised by turns and by a command with no engine.
  Safe: the model stops. -/
  | noSuchEngine
  /-- A platform access outside every engine's window, which is the platform's and not specified (R43). Raised by a
  `bus` turn. Safe: the model stops. -/
  | outsideWindows
  /-- A script branch tests a name that no read has bound (R84 gives it no value). Raised by a `script` turn. Safe. -/
  | unboundName
  /-- A script branch to a label that names no line (R84 gives it no target). Raised by a `script` turn. Safe. -/
  | noSuchLabel
  deriving DecidableEq, Repr

/-- The host's script agent (R84): the engine its offsets are in, the lines, the next line, and the names bound. -/
structure Script where
  engine : Nat
  lines : List ScriptLine
  next : Nat
  names : List (Nat × Word)
  deriving DecidableEq, Repr

/-- The state: the engines (R13), the model fault set (R40), and the model's own record of the agents. -/
structure State where
  /-- The engines, by number (R137). -/
  engines : List Engine
  /-- The model fault set (R40). -/
  faults : FaultSet
  /-- MODEL'S OWN: the turns to come, first first (log entry 1). -/
  schedule : List Turn
  /-- MODEL'S OWN: the engine whose perform step `exec` is (log entry 1). -/
  active : Nat
  /-- MODEL'S OWN: how the host's last access ended (R83: the returned value). -/
  response : Option Response
  /-- MODEL'S OWN: the host's script (R84). -/
  script : Script
  /-- MODEL'S OWN: how many free values have been drawn (log entry 3). -/
  draws : Nat
  deriving DecidableEq, Repr

/-- The reset value of STATUS (R17). -/
def Status.reset : Status := ⟨false, false, false, none, none⟩

/-- The reset values of the input registers (R14). -/
def InputRegs.reset : InputRegs := ⟨0#32, 0#16, 0#32, 0#8, 0#8, 0#8⟩

/-- Every result register 0: the reset values (R14), and what a command that gives no result writes (R90). -/
def ResultRegs.zero : ResultRegs := ⟨0#32, 0#16, 0#32, 0#32, 0#8, 0#8, 0#2, 0#32⟩

/-- No input was written while busy. -/
def Hazard.clear : Hazard := ⟨false, false, false, false, []⟩

/-- An engine after reset (70_reset_and_hazards R141). -/
def Engine.reset : Engine where
  cmd := 0#32
  status := Status.reset
  doneIe := false
  inputs := InputRegs.reset
  results := ResultRegs.zero
  ibuf := []
  obuf := []
  stuck := false
  hazard := Hazard.clear

/-- The machine right after reset: NUM_ENGINES idle engines (R137, R141), no model fault (R40), and nothing placed
outside them (log entry 1). -/
def State.reset : State where
  engines := Engine.reset :: List.replicate Config.extraEngines Engine.reset
  faults := ⟨false, false⟩
  schedule := []
  active := 0
  response := none
  script := ⟨0, [], 0, []⟩
  draws := 0

end Sys2Proof.Machine
end

