-- ==== Sys2Proof/Machine/Flags.lean ====
section
/-! DEFINITION. Every flag computation the spec gives: the codes of STATUS.ERR and STATUS.CAUSE (60_exceptions R122,
R123), the STATUS word, its write-1-to-clear bits, and the IRQ line (10_state R17, R18, R39). -/

namespace Sys2Proof.Machine

/-- The code of an error kind in STATUS.ERR (R122). -/
def ErrorKind.code : ErrorKind → BitVec 4
  | .truncatedInput => 1#4
  | .invalidChecksum => 2#4
  | .lengthEncodingUnsupported => 3#4
  | .invalidLengthBufferSize => 4#4
  | .imageMalformed => 5#4
  | .badCommand => 6#4
  | .paramRange => 7#4

/-- The code of an error cause in STATUS.CAUSE (R123). -/
def ErrorCause.code : ErrorCause → Byte
  | .frameShort => 0x01#8
  | .crcMismatch => 0x02#8
  | .sectionLenMismatch => 0x03#8
  | .blockOverrun => 0x04#8
  | .checkShort => 0x05#8
  | .payloadTooLong => 0x10#8
  | .sectionTooLong => 0x11#8
  | .windowSize => 0x18#8
  | .recordHeaderShort => 0x20#8
  | .recordPayloadShort => 0x21#8
  | .reservedCommand => 0x30#8
  | .inLenRange => 0x38#8

/-- The kind a cause belongs to (R123): `raise KIND(CAUSE)` always pairs the two. -/
def ErrorCause.kind : ErrorCause → ErrorKind
  | .frameShort => .truncatedInput
  | .crcMismatch => .invalidChecksum
  | .sectionLenMismatch => .truncatedInput
  | .blockOverrun => .truncatedInput
  | .checkShort => .truncatedInput
  | .payloadTooLong => .lengthEncodingUnsupported
  | .sectionTooLong => .lengthEncodingUnsupported
  | .windowSize => .invalidLengthBufferSize
  | .recordHeaderShort => .imageMalformed
  | .recordPayloadShort => .imageMalformed
  | .reservedCommand => .badCommand
  | .inLenRange => .paramRange

/-- STATUS.ERR; 0 is no error (R17, R122). -/
def Status.errCode (st : Status) : BitVec 4 :=
  match st.err with
  | none => 0#4
  | some k => k.code

/-- STATUS.CAUSE; 0 is none (R17, R123). -/
def Status.causeCode (st : Status) : Byte :=
  match st.cause with
  | none => 0#8
  | some c => c.code

/-- One flag as a 32-bit word. -/
def flagBit (b : Bool) : Word := (BitVec.ofBool b).setWidth 32

/-- The STATUS word: BUSY [0], DONE [1], REJECTED [2], ERR [7:4], CAUSE [15:8], the rest zero (R17). -/
def Status.word (st : Status) : Word :=
  flagBit st.busy ||| (flagBit st.done <<< 1) ||| (flagBit st.rejected <<< 2)
    ||| (st.errCode.setWidth 32 <<< 4) ||| (st.causeCode.setWidth 32 <<< 8)

/-- A host write of w to STATUS: bit 1 clears DONE, bit 2 clears REJECTED, nothing else changes (R18). -/
def Status.acknowledge (st : Status) (w : Word) : Status :=
  { st with done := st.done && !w.getLsbD 1, rejected := st.rejected && !w.getLsbD 2 }

/-- STATUS at the acceptance of a command (R87). -/
def Status.accepted (st : Status) : Status :=
  { st with busy := true, done := false, err := none, cause := none }

/-- STATUS at a successful completion (R90). -/
def Status.succeeded (st : Status) : Status :=
  { st with busy := false, done := true, err := none, cause := none }

/-- STATUS at an error completion (R91). -/
def Status.failed (st : Status) (c : ErrorCause) : Status :=
  { st with busy := false, done := true, err := some c.kind, cause := some c }

/-- `IRQ = STATUS.DONE & IRQ_EN.DONE_IE` (R39, R126). -/
def Engine.irq (e : Engine) : Bool := e.status.done && e.doneIe

end Sys2Proof.Machine
end

