-- ==== Sys2Proof/Machine/Packet.lean ====
section
/-! DEFINITION. Packets and their byte forms that carry no error check: the field packer (42_checksum R103, R104),
the packet image (30_encoding R81, R82) and the wire size of a block (R73). -/

namespace Sys2Proof.Machine

/-- One attribute block: an 8-bit kind and an opaque payload (R10, R80). -/
structure Block where
  kind : Byte
  payload : List Byte
  deriving DecidableEq, Repr

/-- A packet: a 16-bit type and its blocks in wire order (R10, R80). -/
structure Packet where
  type : Half
  blocks : List Block
  deriving DecidableEq, Repr

/-- `BE16(v)`: the high byte, then the low byte (R103). -/
def packBe16 (v : Half) : List Byte := [v.extractLsb' 8 8, v.extractLsb' 0 8]

/-- `be16([x, y]) = (x << 8) | y` (R103). -/
def be16 (x y : Byte) : Half := (x.setWidth 16 <<< 8) ||| y.setWidth 16

/-- `LE32(v)`: the four bytes of v, lowest first (R104). -/
def packLe32 (v : Word) : List Byte :=
  [v.extractLsb' 0 8, v.extractLsb' 8 8, v.extractLsb' 16 8, v.extractLsb' 24 8]

/-- The little-endian value of a byte string: byte j counts `<< 8j`. On four bytes it is `le32` (R104); on 1, 2 or
4 buffer cells it is the value of a host read (R46). -/
def leWord : List Byte → Word
  | [] => 0#32
  | b :: rest => b.setWidth 32 ||| (leWord rest <<< 8)

/-- `w(L)`: the width of the length field of a payload of L bytes (R73). -/
def lengthWidth (len : Nat) : Nat := if len ≤ 127 then 1 else 2

/-- The bytes a block occupies in the section: `1 + w(L) + L` (R73). -/
def Block.wireSize (b : Block) : Nat := 1 + lengthWidth b.payload.length + b.payload.length

/-- N, the sum of the blocks' wire sizes (R72, R110). -/
def sectionSize (blocks : List Block) : Nat := (blocks.map Block.wireSize).sum

/-- `rec(k, p) = [k] ++ BE16(len(p)) ++ p` (R82). -/
def Block.record (b : Block) : List Byte :=
  b.kind :: (packBe16 (BitVec.ofNat 16 b.payload.length) ++ b.payload)

/-- The packet image: the records in block order (R82). -/
def image (blocks : List Block) : List Byte := blocks.flatMap Block.record

end Sys2Proof.Machine
end

