-- ==== Sys2Proof/Machine/Ops.lean ====
section
/-! DEFINITION. The shared operations over buffers, registers, engines and the state: buffer cells (20_memory R46,
R54, R55), the register page (10_state R14 to R31), the life of a command (40_control R87 to R91), with `raise` as the
ONE operation `Engine.completeError` (60_exceptions R121), and reset (70_reset_and_hazards R141). -/

namespace Sys2Proof.Machine

/-! ## Buffers -/

/-- The value of a cell, if it holds one (R35, R36). -/
def Memory.read : Memory → Nat → Option Byte
  | [], _ => none
  | (b, v) :: rest, a => if b = a then some v else Memory.read rest a

/-- Store a byte in a cell, keeping the cells in order (R55). -/
def Memory.write : Memory → Nat → Byte → Memory
  | [], a, v => [(a, v)]
  | (b, w) :: rest, a, v =>
    if a < b then (a, v) :: (b, w) :: rest
    else if a = b then (a, v) :: rest
    else (b, w) :: Memory.write rest a v

/-- `n` cells from `a` on, if every one holds a value (R53, R54). -/
def Memory.readBytes (m : Memory) : Nat → Nat → Option (List Byte)
  | _, 0 => some []
  | a, n + 1 =>
    match Memory.read m a, Memory.readBytes m (a + 1) n with
    | some v, some vs => some (v :: vs)
    | _, _ => none

/-- Store a byte string in the cells from `a` on, in index order (R46, R55). -/
def Memory.writeBytes : Memory → Nat → List Byte → Memory
  | m, _, [] => m
  | m, a, v :: rest => Memory.writeBytes (Memory.write m a v) (a + 1) rest

/-- The buffer whose cells from `a` on hold the byte string and whose other cells hold no value (R57). -/
def Memory.ofBytes : Nat → List Byte → Memory
  | _, [] => []
  | a, v :: rest => (a, v) :: Memory.ofBytes (a + 1) rest

/-! ## The register page -/

/-- The registers by name; `reserved` is any offset from 0x03C to 0x0FC (R14, R31). -/
inductive Reg where
  | id | cmd | status | irqEn | inLen | typeIn | lenIn | lenWinIn
  | outLen | typeOut | blockCount | lenOut | lenWinOut | lenConsumed | crcOut | reserved
  deriving DecidableEq, Repr

/-- The register at an offset of the register page, a multiple of 4 (R14). -/
def Reg.at (off : Nat) : Reg :=
  match off / 4 with
  | 0 => .id
  | 1 => .cmd
  | 2 => .status
  | 3 => .irqEn
  | 4 => .inLen
  | 5 => .typeIn
  | 6 => .lenIn
  | 7 => .lenWinIn
  | 8 => .outLen
  | 9 => .typeOut
  | 10 => .blockCount
  | 11 => .lenOut
  | 12 => .lenWinOut
  | 13 => .lenConsumed
  | 14 => .crcOut
  | _ => .reserved

/-- The input registers (R14). -/
def Reg.isInput : Reg → Bool
  | .inLen | .typeIn | .lenIn | .lenWinIn => true
  | .id | .cmd | .status | .irqEn | .outLen | .typeOut | .blockCount | .lenOut | .lenWinOut | .lenConsumed
  | .crcOut | .reserved => false

/-- The result registers (R14). -/
def Reg.isResult : Reg → Bool
  | .outLen | .typeOut | .blockCount | .lenOut | .lenWinOut | .lenConsumed | .crcOut => true
  | .id | .cmd | .status | .irqEn | .inLen | .typeIn | .lenIn | .lenWinIn | .reserved => false

/-- The 32-bit value of a register (R11 `NAME`): ID is the constant (R15), reserved bits and offsets read as zero
(R31). -/
def Engine.readReg (e : Engine) : Reg → Word
  | .id => Config.idValue
  | .cmd => e.cmd
  | .status => e.status.word
  | .irqEn => flagBit e.doneIe
  | .inLen => e.inputs.inLen
  | .typeIn => e.inputs.typeIn.setWidth 32
  | .lenIn => e.inputs.lenIn
  | .lenWinIn =>
    e.inputs.winB0.setWidth 32 ||| (e.inputs.winB1.setWidth 32 <<< 8) ||| (e.inputs.winSize.setWidth 32 <<< 16)
  | .outLen => e.results.outLen
  | .typeOut => e.results.typeOut.setWidth 32
  | .blockCount => e.results.blockCount
  | .lenOut => e.results.lenOut
  | .lenWinOut => e.results.winOutB0.setWidth 32 ||| (e.results.winOutB1.setWidth 32 <<< 8)
  | .lenConsumed => e.results.lenConsumed.setWidth 32
  | .crcOut => e.results.crcOut
  | .reserved => 0#32

/-! ## The life of a command -/

/-- Acceptance of command word w (R87): the word is held, BUSY is set, DONE, ERR and CAUSE are cleared; no input was
written while it is pending yet. -/
def Engine.accept (e : Engine) (w : Word) : Engine :=
  { e with cmd := w, status := e.status.accepted, stuck := false, hazard := Hazard.clear }

/-- Rejection: REJECTED is set and nothing else changes (R88). -/
def Engine.reject (e : Engine) : Engine := { e with status := { e.status with rejected := true } }

/-- A host write of word w to CMD (R16): rejected while BUSY, else accepted, whatever w is. -/
def Engine.issue (e : Engine) (w : Word) : Engine := if e.status.busy then e.reject else e.accept w

/-- Successful completion (R90): every result register is written, OBUF holds the output and nothing else (R57). -/
def Engine.completeSuccess (e : Engine) (regs : ResultRegs) (out : List Byte) : Engine :=
  { e with
    results := regs
    obuf := Memory.ofBytes 0 out
    status := e.status.succeeded
    hazard := Hazard.clear }

/-- Error completion, `raise KIND(CAUSE)` (R91, R121): the result registers are 0 but for CRC_OUT, which keeps a
checksum computed before the raise; OBUF holds no value. There is no trap entry and no return (R128, R129). -/
def Engine.completeError (e : Engine) (cause : ErrorCause) (crc : Word) : Engine :=
  { e with
    results := { ResultRegs.zero with crcOut := crc }
    obuf := []
    status := e.status.failed cause
    hazard := Hazard.clear }

/-- What the evaluation of a command's rule gives (R89). -/
inductive CommandResult where
  /-- Success: the values for the result registers and the output bytes (R90). -/
  | success (regs : ResultRegs) (out : List Byte)
  /-- `raise KIND(CAUSE)`, with the checksum computed before it, or 0 (R91). -/
  | raise (cause : ErrorCause) (crc : Word)
  /-- The command would read a cell that holds no value (R93). -/
  | uninitRead
  deriving DecidableEq, Repr

/-- The evaluation would read a cell that holds no value (R93). -/
def CommandResult.isUninit : CommandResult → Bool
  | .uninitRead => true
  | .success _ _ => false
  | .raise _ _ => false

/-- The engine after its perform step: completed, or stuck with BUSY set (R90, R91, R93). -/
def Engine.conclude (e : Engine) : CommandResult → Engine
  | .success regs out => e.completeSuccess regs out
  | .raise cause crc => e.completeError cause crc
  | .uninitRead => { e with stuck := true }

/-! ## Host writes -/

/-- Mark an input register that is written while the command is pending (R147). -/
def Hazard.mark (h : Hazard) (r : Reg) : Hazard :=
  match r with
  | .inLen => { h with inLen := true }
  | .typeIn => { h with typeIn := true }
  | .lenIn => { h with lenIn := true }
  | .lenWinIn => { h with lenWinIn := true }
  | .id | .cmd | .status | .irqEn | .outLen | .typeOut | .blockCount | .lenOut | .lenWinOut | .lenConsumed
  | .crcOut | .reserved => h

/-- Mark `n` IBUF cells from `a` on, keeping the list without repeats (R147). -/
def Hazard.markCells (h : Hazard) : Nat → Nat → Hazard
  | _, 0 => h
  | a, n + 1 => Hazard.markCells { h with cells := h.cells.insert a } (a + 1) n

/-- The input registers after a host write: reserved bits ignore the write (R20 to R23, R31). -/
def InputRegs.store (x : InputRegs) (r : Reg) (w : Word) : InputRegs :=
  match r with
  | .inLen => { x with inLen := w }
  | .typeIn => { x with typeIn := w.extractLsb' 0 16 }
  | .lenIn => { x with lenIn := w }
  | .lenWinIn =>
    { x with winB0 := w.extractLsb' 0 8, winB1 := w.extractLsb' 8 8, winSize := w.extractLsb' 16 8 }
  | .id | .cmd | .status | .irqEn | .outLen | .typeOut | .blockCount | .lenOut | .lenWinOut | .lenConsumed
  | .crcOut | .reserved => x

/-- A host write of word w to a register (R51): CMD issues a command, STATUS is write-1-to-clear, IRQ_EN and the
input registers store, a write to a read-only or reserved register is ignored (R31). -/
def Engine.writeReg (e : Engine) (r : Reg) (w : Word) : Engine :=
  match r with
  | .cmd => e.issue w
  | .status => { e with status := e.status.acknowledge w }
  | .irqEn => { e with doneIe := w.getLsbD 0 }
  | .inLen | .typeIn | .lenIn | .lenWinIn =>
    { e with
      inputs := e.inputs.store r w
      hazard := if e.status.busy then e.hazard.mark r else e.hazard }
  | .id | .outLen | .typeOut | .blockCount | .lenOut | .lenWinOut | .lenConsumed | .crcOut | .reserved => e

/-- A host write of bytes to IBUF cells from `a` on (R46, R147). -/
def Engine.writeIbuf (e : Engine) (a : Nat) (bytes : List Byte) : Engine :=
  { e with
    ibuf := Memory.writeBytes e.ibuf a bytes
    hazard := if e.status.busy then e.hazard.markCells a bytes.length else e.hazard }

/-! ## The state -/

/-- Record a model fault (R40): the set only grows. -/
def FaultSet.record (f : FaultSet) : Fault → FaultSet
  | .uninitRead => { f with uninitRead := true }
  | .hostHazard => { f with hostHazard := true }

/-- Record a model fault in the state (R11 `fault F`). -/
def State.record (s : State) (f : Fault) : State := { s with faults := s.faults.record f }

/-- Record a model fault if a condition holds. -/
def State.recordIf (s : State) (c : Bool) (f : Fault) : State := if c then s.record f else s

/-- Replace engine n; the engines share no state (R13, R62). -/
def State.setEngine (s : State) (n : Nat) (e : Engine) : State := { s with engines := s.engines.set n e }

/-- The host's access ended so. -/
def State.respond (s : State) (r : Response) : State := { s with response := some r }

/-- A free value was drawn. -/
def State.drawn (s : State) : State := { s with draws := s.draws + 1 }

/-- A reset step: every engine takes its reset values; the model fault set is not changed (R141, R142). -/
def State.resetStep (s : State) : State := { s with engines := s.engines.map (fun _ => Engine.reset) }

end Sys2Proof.Machine
end

