-- ==== Sys2Proof/Machine/Operands.lean ====
section
/-! DEFINITION. What a command reads (30_encoding R70, 40_control R89): the input registers and IBUF[0..IN_LEN), with
the range check R92 and the unwritten-input check R93 that the four IBUF commands share. -/

namespace Sys2Proof.Machine

/-- The arguments of `Exec` other than the command word (R89). -/
structure Operands where
  regs : InputRegs
  ibuf : Memory
  deriving DecidableEq, Repr

/-- One input as the pending command reads it: its value, or the free value if it was written meanwhile (R147). -/
def seen {n : Nat} (written : Bool) (free stored : BitVec n) : BitVec n := if written then free else stored

/-- The input registers as the pending command reads them (R60, R147); the free words are numbered by the register's
place in the page (R14). -/
def Engine.seenRegs (e : Engine) (draw : Nat) : InputRegs where
  inLen := seen e.hazard.inLen (Config.hazardWord draw 4) e.inputs.inLen
  typeIn := seen e.hazard.typeIn ((Config.hazardWord draw 5).extractLsb' 0 16) e.inputs.typeIn
  lenIn := seen e.hazard.lenIn (Config.hazardWord draw 6) e.inputs.lenIn
  winB0 := seen e.hazard.lenWinIn ((Config.hazardWord draw 7).extractLsb' 0 8) e.inputs.winB0
  winB1 := seen e.hazard.lenWinIn ((Config.hazardWord draw 7).extractLsb' 8 8) e.inputs.winB1
  winSize := seen e.hazard.lenWinIn ((Config.hazardWord draw 7).extractLsb' 16 8) e.inputs.winSize

/-- IBUF as the pending command reads it (R60, R147). -/
def Engine.seenIbuf (e : Engine) (draw : Nat) : Memory :=
  e.ibuf.map (fun c => (c.1, seen (e.hazard.cells.contains c.1) (Config.hazardByte draw c.1) c.2))

/-- The operands of the pending command. -/
def Engine.operands (e : Engine) (draw : Nat) : Operands := ⟨e.seenRegs draw, e.seenIbuf draw⟩

/-- The body of a command that reads IBUF[0..IN_LEN): first IN_LEN's range (R92), then that every cell holds a value
(R93, R54), then the command's own rule on the bytes. -/
def Operands.withInput (o : Operands) (body : List Byte → CommandResult) : CommandResult :=
  if o.regs.inLen.toNat > Config.ibufBytes then .raise .inLenRange 0#32
  else
    match Memory.readBytes o.ibuf 0 o.regs.inLen.toNat with
    | none => .uninitRead
    | some bytes => body bytes

end Sys2Proof.Machine
end

