-- ==== Sys2Proof/Machine/Control.lean ====
section
/-! DEFINITION. The perform step (40_control R89) and the commands of that file: NOP (R94) and the reserved words
(R95). -/

namespace Sys2Proof.Machine

/-- The perform step of the active engine (R89): evaluate the command's rule on its operands and conclude, in one
atomic transition. A cell with no value records UNINIT_READ (R93). -/
def State.performCommand (s : State) (rule : Operands → CommandResult) :
    Host.Outcome State Fault Refusal :=
  match s.engines[s.active]? with
  | none => .refused .noSuchEngine
  | some e =>
    let result := rule (e.operands s.draws)
    .next (((s.setEngine s.active (e.conclude result)).recordIf result.isUninit .uninitRead).drawn)

/-- `return success`: no result register value, no OBUF bytes (R94). -/
def nopResult (_ : Operands) : CommandResult := .success ResultRegs.zero []

/-- NOP (R94). -/
def execNop (s : State) : Host.Outcome State Fault Refusal := s.performCommand nopResult

/-- `raise BAD_COMMAND(RESERVED_COMMAND)` (R95). -/
def reservedResult (_ : Operands) : CommandResult := .raise .reservedCommand 0#32

/-- A reserved command word (R68, R95). It is no row of the opcode table, so `exec` has no arm for it; the perform
turn runs it. -/
def execReserved (s : State) : Host.Outcome State Fault Refusal := s.performCommand reservedResult

end Sys2Proof.Machine
end

