-- ==== Sys2Proof/Machine/Checksum.lean ====
section
/-! DEFINITION. The checksum generator and verifier (42_checksum): CRC-32 and the commands CRC32_GEN and
CRC32_CHECK. -/

namespace Sys2Proof.Machine

/-- One of the 8 rounds of R102. -/
def crcRound (crc : Word) : Word :=
  if crc.getLsbD 0 then (crc >>> 1) ^^^ 0xEDB88320#32 else crc >>> 1

/-- `n` rounds. -/
def crcRounds : Nat → Word → Word
  | 0, crc => crc
  | n + 1, crc => crcRounds n (crcRound crc)

/-- One byte of R102: xor it in, then 8 rounds. -/
def crcByte (crc : Word) (b : Byte) : Word := crcRounds 8 (crc ^^^ b.setWidth 32)

/-- `CRC32(s)` (R102). -/
def crc32 (s : List Byte) : Word := s.foldl crcByte 0xFFFFFFFF#32 ^^^ 0xFFFFFFFF#32

/-- The message a trailer protects: all bytes except the last 4 (R105). -/
def message (f : List Byte) : List Byte := f.take (f.length - 4)

/-- The last 4 bytes as a little-endian word (R105). -/
def trailer (f : List Byte) : Word := leWord (f.drop (f.length - 4))

/-- `CrcOk(f)`, for a byte string of at least 4 bytes (R105). -/
def crcOk (f : List Byte) : Bool := crc32 (message f) == trailer f

/-- The rule of CRC32_GEN (R106). -/
def crc32GenResult (o : Operands) : CommandResult :=
  o.withInput fun m => .success { ResultRegs.zero with crcOut := crc32 m } []

/-- CRC32_GEN (R106). -/
def execCrc32Gen (s : State) : Host.Outcome State Fault Refusal := s.performCommand crc32GenResult

/-- The rule of CRC32_CHECK (R107). -/
def crc32CheckResult (o : Operands) : CommandResult :=
  o.withInput fun f =>
    if f.length < 4 then .raise .checkShort 0#32
    else if crcOk f then .success { ResultRegs.zero with crcOut := crc32 (message f) } []
    else .raise .crcMismatch (crc32 (message f))

/-- CRC32_CHECK (R107). -/
def execCrc32Check (s : State) : Host.Outcome State Fault Refusal := s.performCommand crc32CheckResult

end Sys2Proof.Machine
end

