-- ==== Sys2Proof/Machine/LengthCodec.lean ====
section
/-! DEFINITION. The length codec (41_length_codec): its two primitives and the commands LEN_ENCODE and LEN_DECODE. -/

namespace Sys2Proof.Machine

/-- A written length field (R75, R76). In the one-byte form the window's second byte is not written (R96). -/
inductive LengthField where
  | one (b0 : Byte)
  | two (b0 b1 : Byte)
  deriving DecidableEq, Repr

/-- The bytes of the field: only the consumed ones (R111). -/
def LengthField.bytes : LengthField → List Byte
  | .one b0 => [b0]
  | .two b0 b1 => [b0, b1]

/-- `LenEnc(v, ws)` (R96): the window check comes first (R98). -/
def lenEnc (v ws : Nat) : Except ErrorCause LengthField :=
  if ws ≠ Config.lenWindow then .error .windowSize
  else if v ≤ 127 then .ok (.one (BitVec.ofNat 8 v))
  else if v ≤ Config.maxVarlen then
    .ok (.two (BitVec.ofNat 8 (0x80 ||| (v &&& 0x7F))) (BitVec.ofNat 8 (v >>> 7)))
  else .error .payloadTooLong

/-- What `LenDec` returns: the length and the number of window bytes consumed (R97). -/
structure DecodedLength where
  length : Nat
  consumed : Nat
  deriving DecidableEq, Repr

/-- `LenDec(b0, b1, ws)` (R97): the window check comes first (R98); every byte pair decodes (R78). -/
def lenDec (b0 b1 : Byte) (ws : Nat) : Except ErrorCause DecodedLength :=
  if ws ≠ Config.lenWindow then .error .windowSize
  else if b0.getLsbD 7 = false then .ok ⟨b0.toNat, 1⟩
  else .ok ⟨(b0.toNat &&& 0x7F) ||| (b1.toNat <<< 7), 2⟩

/-- The rule of LEN_ENCODE: B1 is written 0 when one byte is consumed (R99). -/
def lenEncodeResult (o : Operands) : CommandResult :=
  match lenEnc o.regs.lenIn.toNat o.regs.winSize.toNat with
  | .error cause => .raise cause 0#32
  | .ok (.one b0) => .success { ResultRegs.zero with winOutB0 := b0, lenConsumed := 1#2 } []
  | .ok (.two b0 b1) =>
    .success { ResultRegs.zero with winOutB0 := b0, winOutB1 := b1, lenConsumed := 2#2 } []

/-- LEN_ENCODE (R99). -/
def execLenEncode (s : State) : Host.Outcome State Fault Refusal := s.performCommand lenEncodeResult

/-- The rule of LEN_DECODE (R100). -/
def lenDecodeResult (o : Operands) : CommandResult :=
  match lenDec o.regs.winB0 o.regs.winB1 o.regs.winSize.toNat with
  | .error cause => .raise cause 0#32
  | .ok d =>
    .success
      { ResultRegs.zero with
        lenOut := BitVec.ofNat 32 d.length
        lenConsumed := BitVec.ofNat 2 d.consumed } []

/-- LEN_DECODE (R100). -/
def execLenDecode (s : State) : Host.Outcome State Fault Refusal := s.performCommand lenDecodeResult

end Sys2Proof.Machine
end

