-- ==== Sys2Proof/Machine/FrameCodec.lean ====
section
/-! DEFINITION. The frame codec (43_frame_codec): the serializer with FRAME_ENCODE and the deserializer with
FRAME_DECODE. The parse offset p of R109 and R115 is internal (10_state R33); here it is how far the byte list has
been consumed. -/

namespace Sys2Proof.Machine

/-! ## Serializer -/

/-- `ParseImage` (R109) on the image's bytes from offset p on, of which `skip` bytes still belong to the record read
last. At `skip = 0` a record starts: its header, its payload's extent and its length's range are checked in that
order, and `M - p` is the length of the list. -/
def parseRecords : Nat → List Byte → Except ErrorCause (List Block)
  | _, [] => .ok []
  | skip + 1, _ :: rest => parseRecords skip rest
  | 0, k :: rest =>
    match rest with
    | hi :: lo :: body =>
      if body.length < (be16 hi lo).toNat then .error .recordPayloadShort
      else if (be16 hi lo).toNat > Config.maxVarlen then .error .payloadTooLong
      else
        match parseRecords (2 + (be16 hi lo).toNat) rest with
        | .ok recs => .ok (⟨k, body.take (be16 hi lo).toNat⟩ :: recs)
        | .error cause => .error cause
    | _ => .error .recordHeaderShort

/-- `ParseImage(M)` (R109). -/
def parseImage (img : List Byte) : Except ErrorCause (List Block) := parseRecords 0 img

/-- The blocks of the section: kind, length field, payload, in order (R111). The encoder's error is passed on,
though none arises after `ParseImage` (R98). -/
def serializeBlocks : List Block → Except ErrorCause (List Byte)
  | [] => .ok []
  | b :: rest =>
    match lenEnc b.payload.length Config.lenWindow, serializeBlocks rest with
    | .ok field, .ok tail => .ok (b.kind :: (field.bytes ++ b.payload ++ tail))
    | .error cause, _ => .error cause
    | .ok _, .error cause => .error cause

/-- The bytes of the frame before its trailer: type, section length, section (R111). -/
def frameBody (type : Half) (n : Nat) (section_ : List Byte) : List Byte :=
  packBe16 type ++ packBe16 (BitVec.ofNat 16 n) ++ section_

/-- The rule of FRAME_ENCODE on the image (R112): parse, check the section size (R110), serialize (R111). -/
def encodeFrame (type : Half) (img : List Byte) : CommandResult :=
  match parseImage img with
  | .error cause => .raise cause 0#32
  | .ok recs =>
    if sectionSize recs > Config.maxSection then .raise .sectionTooLong 0#32
    else
      match serializeBlocks recs with
      | .error cause => .raise cause 0#32
      | .ok section_ =>
        let body := frameBody type (sectionSize recs) section_
        .success
          { ResultRegs.zero with
            outLen := BitVec.ofNat 32 (8 + sectionSize recs)
            blockCount := BitVec.ofNat 32 recs.length
            crcOut := crc32 body } (body ++ packLe32 (crc32 body))

/-- The rule of FRAME_ENCODE (R112). -/
def frameEncodeResult (o : Operands) : CommandResult := o.withInput (encodeFrame o.regs.typeIn)

/-- FRAME_ENCODE (R112). -/
def execFrameEncode (s : State) : Host.Outcome State Fault Refusal := s.performCommand frameEncodeResult

/-! ## Deserializer -/

/-- The block parse (R115) on the frame's bytes from offset p on, of which `skip` bytes still belong to the block read
last. The last 4 bytes are the trailer, so `end - p` is the length of the list less 4, and the length window may read
trailer bytes. At `skip = 0` and p < end a block starts; `end - q` is an exact integer. -/
def parseBlocks : Nat → List Byte → Except ErrorCause (List Block)
  | _, [] => .ok []
  | skip + 1, _ :: rest => parseBlocks skip rest
  | 0, k :: rest =>
    if rest.length < 4 then .ok []
    else
      match rest with
      | b0 :: b1 :: _ =>
        match lenDec b0 b1 Config.lenWindow with
        | .error cause => .error cause
        | .ok d =>
          if (rest.length : Int) - 4 - d.consumed < d.length then .error .blockOverrun
          else
            match parseBlocks (d.consumed + d.length) rest with
            | .ok blocks => .ok (⟨k, (rest.drop d.consumed).take d.length⟩ :: blocks)
            | .error cause => .error cause
      | _ => .error .blockOverrun

/-- The parse and the output image of FRAME_DECODE, once the section length has been found right (R115, R116).
`fromSection` is the frame from offset 4 on. -/
def decodeSection (type : Half) (crc : Word) (fromSection : List Byte) : CommandResult :=
  match parseBlocks 0 fromSection with
  | .error cause => .raise cause crc
  | .ok blocks =>
    .success
      { ResultRegs.zero with
        outLen := BitVec.ofNat 32 (image blocks).length
        typeOut := type
        blockCount := BitVec.ofNat 32 blocks.length
        crcOut := crc } (image blocks)

/-- The rule of FRAME_DECODE on the frame (R113, R117): length, checksum, and only then the fields (R114). -/
def decodeFrame (f : List Byte) : CommandResult :=
  if f.length < Config.minFrame then .raise .frameShort 0#32
  else if crcOk f = false then .raise .crcMismatch (crc32 (message f))
  else
    match f with
    | t0 :: t1 :: n0 :: n1 :: fromSection =>
      if (be16 n0 n1).toNat ≠ f.length - 8 then .raise .sectionLenMismatch (crc32 (message f))
      else decodeSection (be16 t0 t1) (crc32 (message f)) fromSection
    | _ => .raise .frameShort 0#32

/-- The rule of FRAME_DECODE (R117). -/
def frameDecodeResult (o : Operands) : CommandResult := o.withInput decodeFrame

/-- FRAME_DECODE (R117). -/
def execFrameDecode (s : State) : Host.Outcome State Fault Refusal := s.performCommand frameDecodeResult

end Sys2Proof.Machine
end

