-- ==== Sys2Proof/Machine/Dispatch.lean ====
section
/-! DEFINITION. One arm per command of 30_encoding R67. -/

namespace Sys2Proof.Machine

-- The perform step of the active engine for a command of the opcode table (40_control R89).
def exec (i : Instr) (s : State) : Host.Outcome State Fault Refusal :=
  match i with
  | .nop => Sys2Proof.Machine.execNop s
  | .frameEncode => Sys2Proof.Machine.execFrameEncode s
  | .frameDecode => Sys2Proof.Machine.execFrameDecode s
  | .lenEncode => Sys2Proof.Machine.execLenEncode s
  | .lenDecode => Sys2Proof.Machine.execLenDecode s
  | .crc32Gen => Sys2Proof.Machine.execCrc32Gen s
  | .crc32Check => Sys2Proof.Machine.execCrc32Check s

end Sys2Proof.Machine
end

