-- ==== Sys2Proof/Machine/HostBus.lean ====
section
/-! DEFINITION. Host accesses (20_memory): which access is a bus error, the byte lanes, the side effects, and the model
faults of R53 and R147. -/

namespace Sys2Proof.Machine

/-- What a mapped, aligned access of a legal width reaches (R42). -/
inductive Target where
  | reg (r : Reg)
  | ibuf (i : Nat)
  | obuf (i : Nat)
  deriving DecidableEq, Repr

/-- The window map (R42) with the alignment rule (R48) and the register page's width rule (R47); `none` is a bus
error. A write to OBUF is a bus error too (R52), in `State.hostWrite`. -/
def target (off : Nat) (size : AccessSize) : Option Target :=
  if off % size.bytes ≠ 0 then none
  else if off < 0x100 then
    match size with
    | .four => some (.reg (Reg.at off))
    | .one => none
    | .two => none
  else if 0x20000 ≤ off ∧ off < 0x20000 + Config.ibufBytes then some (.ibuf (off - 0x20000))
  else if 0x40000 ≤ off ∧ off < 0x40000 + Config.obufBytes then some (.obuf (off - 0x40000))
  else none

/-- The bytes of a written value, lowest lane first (R46). -/
def WriteData.lanes : WriteData → List Byte
  | .byte v => [v]
  | .half v => [v.extractLsb' 0 8, v.extractLsb' 8 8]
  | .word v => packLe32 v

/-- The low bytes of a word, as wide as the access. -/
def AccessSize.low (n : AccessSize) (w : Word) : Word :=
  match n with
  | .one => (w.setWidth 8).setWidth 32
  | .two => (w.setWidth 16).setWidth 32
  | .four => w

/-- A read that returns any value (R148, U4): one free draw. -/
def State.freeRead (s : State) (size : AccessSize) : State :=
  (s.respond (.data (size.low (Config.busyRead s.draws)))).drawn

/-- The value of a read of buffer cells, by little-endian lanes (R46); a cell with no value records UNINIT_READ and
the read returns none (R53). -/
def State.cellRead (s : State) : Option (List Byte) → State
  | some cells => s.respond (.data (leWord cells))
  | none => (s.record .uninitRead).respond .noValue

/-- A host read (R51: no side effect on the engine). While BUSY a result register or OBUF gives any value (R148). -/
def State.hostRead (s : State) (e : Engine) (t : Target) (size : AccessSize) : State :=
  match t with
  | .reg r => if e.status.busy && r.isResult then s.freeRead size else s.respond (.data (e.readReg r))
  | .ibuf i => s.cellRead (Memory.readBytes e.ibuf i size.bytes)
  | .obuf i => if e.status.busy then s.freeRead size else s.cellRead (Memory.readBytes e.obuf i size.bytes)

/-- A host write to engine n. An input register or IBUF written while BUSY records HOST_HAZARD and is stored as usual
(R147); OBUF is not writable (R52); a register takes 32 bits (R47). -/
def State.hostWrite (s : State) (n : Nat) (e : Engine) (t : Target) (d : WriteData) : State :=
  match t with
  | .reg r =>
    match d with
    | .word w =>
      ((s.setEngine n (e.writeReg r w)).recordIf (e.status.busy && r.isInput) .hostHazard).respond .written
    | .byte _ => s.respond .busError
    | .half _ => s.respond .busError
  | .ibuf i => ((s.setEngine n (e.writeIbuf i d.lanes)).recordIf e.status.busy .hostHazard).respond .written
  | .obuf _ => s.respond .busError

/-- A host transaction on engine n, whose state is e. A bus error changes no state of the engine (R133). -/
def State.hostAccess (s : State) (n : Nat) (e : Engine) (t : Transaction) : State :=
  match target t.off.toNat t.access.size with
  | none => s.respond .busError
  | some tg =>
    match t.access with
    | .read size => s.hostRead e tg size
    | .write d => s.hostWrite n e tg d

/-- A host transaction in engine n's window (R83). -/
def State.hostTurn (s : State) (n : Nat) (t : Transaction) : Host.Outcome State Fault Refusal :=
  match s.engines[n]? with
  | none => .refused .noSuchEngine
  | some e => .next (s.hostAccess n e t)

/-- Which engine's window a platform address lies in, and at which offset: engine e's window starts at
ENGINE_BASE + e * 0x80000, and ENGINE_BASE is a multiple of 0x80000 (R43), so the window's number is the quotient less
ENGINE_BASE's. -/
def windowOf (addr : Nat) : Option (Nat × BitVec 19) :=
  if addr / Config.engineWindow < Config.engineBaseIndex then none
  else some (addr / Config.engineWindow - Config.engineBaseIndex, BitVec.ofNat 19 (addr % Config.engineWindow))

/-- An access at a platform address. What lies outside the windows is the platform's (R43). -/
def State.busTurn (s : State) (addr : Nat) (access : Access) : Host.Outcome State Fault Refusal :=
  match windowOf addr with
  | none => .refused .outsideWindows
  | some (n, off) =>
    match s.engines[n]? with
    | none => .refused .outsideWindows
    | some e => .next (s.hostAccess n e ⟨off, access⟩)

end Sys2Proof.Machine
end

