-- ==== Sys2Proof/Machine/Script.lean ====
section
/-! DEFINITION. The host's script (30_encoding R84) and the expansions of the pseudo-instructions (R85). -/

namespace Sys2Proof.Machine

/-- The value bound to a name. -/
def Script.lookup (sc : Script) (name : Nat) : Option Word := sc.names.lookup name

/-- Bind a name to the value a read returned; a read that returned no data leaves the name unbound. -/
def Script.bind (sc : Script) (name : Nat) : Option Response → Script
  | some (.data v) => { sc with names := (name, v) :: sc.names.filter (fun b => b.1 != name) }
  | _ => { sc with names := sc.names.filter (fun b => b.1 != name) }

/-- Go to the next line. -/
def Script.advance (sc : Script) : Script := { sc with next := sc.next + 1 }

/-- A branch (R84): it issues no transaction. -/
def State.branch (s : State) (sense : Bool) (name : Nat) (mask value : Word) (label : Nat) :
    Host.Outcome State Fault Refusal :=
  match s.script.lookup name with
  | none => .refused .unboundName
  | some v =>
    if decide (v &&& mask = value) = sense then
      match s.script.lines.findIdx? (fun l => l.label == some label) with
      | none => .refused .noSuchLabel
      | some k => .next { s with script := { s.script with next := k } }
    else .next { s with script := s.script.advance }

/-- The host runs the next line of its script (R84). Past the last line it does nothing. -/
def State.scriptTurn (s : State) : Host.Outcome State Fault Refusal :=
  match s.script.lines[s.script.next]? with
  | none => .next s
  | some line =>
    match line.stmt with
    | .comment => .next { s with script := s.script.advance }
    | .write off d =>
      match s.engines[s.script.engine]? with
      | none => .refused .noSuchEngine
      | some e =>
        .next { s.hostAccess s.script.engine e ⟨off, .write d⟩ with script := s.script.advance }
    | .read size off name =>
      match s.engines[s.script.engine]? with
      | none => .refused .noSuchEngine
      | some e =>
        let s' := s.hostAccess s.script.engine e ⟨off, .read size⟩
        .next { s' with script := (s.script.bind name s'.response).advance }
    | .beq name mask value label => s.branch true name mask value label
    | .bne name mask value label => s.branch false name mask value label

/-- `LOADI`: one `W8` per byte (R85). DESIGN CHOICE, log entry 24: an offset 0x20000 + i past 0x7FFFF is no offset of
a transaction (R83), the spec is silent, and the sum is taken modulo 2^19; `Pseudo.wf` rejects every `LOADI` that leaves
IBUF. -/
def expandLoad : Nat → List Byte → List ScriptLine
  | _, [] => []
  | i, b :: rest => ⟨none, .write (BitVec.ofNat 19 (0x20000 + i)) (.byte b)⟩ :: expandLoad (i + 1) rest

/-- The expansion of a pseudo-instruction (R85). -/
def Pseudo.expand : Pseudo → List ScriptLine
  | .cmd i => [⟨none, .write 0x004#19 (.word (encode i))⟩]
  | .waitDone name label =>
    [⟨some label, .read .four 0x008#19 name⟩, ⟨none, .beq name 0x2#32 0x0#32 label⟩]
  | .ack => [⟨none, .write 0x008#19 (.word 0x00000006#32)⟩]
  | .loadI start bytes => expandLoad start bytes
  | .setWin size b0 b1 =>
    [⟨none, .write 0x01C#19
      (.word ((size.setWidth 32 <<< 16) + (b1.setWidth 32 <<< 8) + b0.setWidth 32))⟩]

end Sys2Proof.Machine
end

