-- ==== Sys2Proof/Machine/Turn.lean ====
section
/-! DEFINITION. What each agent's turn does (00_scope R7): the host's accesses and script, an engine's perform step
(40_control R89), the reset source (70_reset_and_hazards R140). -/

namespace Sys2Proof.Machine

/-- An engine has its perform step exactly while BUSY, unless a model fault stopped its command (R89, R93). -/
def Engine.enabled (e : Engine) : Bool := e.status.busy && !e.stuck

/-- Run the command in a held command word: a word of the table by `exec`, a reserved word by R95. -/
def State.runWord (s : State) (w : Word) : Host.Outcome State Fault Refusal :=
  match decode w with
  | .ok i => exec i s
  | .error _ => execReserved s

/-- A turn of engine n. An engine with no enabled step does nothing (R89, R139). -/
def State.performTurn (s : State) (n : Nat) : Host.Outcome State Fault Refusal :=
  match s.engines[n]? with
  | none => .refused .noSuchEngine
  | some e => if e.enabled then ({ s with active := n } : State).runWord e.cmd else .next s

/-- The step after the schedule's last turn. The host and the reset source act no more, and an engine that has its
perform step enabled takes it, the lowest number first, so no accepted command stays pending for ever
(70_reset_and_hazards R153). With none enabled nothing changes. DESIGN CHOICE: the order, log entry 25. -/
def State.drainTurn (s : State) : Host.Outcome State Fault Refusal :=
  match s.engines.findIdx? Engine.enabled with
  | none => .next s
  | some n => s.performTurn n

/-- A turn of any agent. -/
def State.takeTurn (s : State) : Turn → Host.Outcome State Fault Refusal
  | .host n t => s.hostTurn n t
  | .bus addr access => s.busTurn addr access
  | .script => s.scriptTurn
  | .perform n => s.performTurn n
  | .reset => .next s.resetStep

/-- A state in which engine 0 has just accepted a word and takes the next turn. -/
def State.acceptedNext (s : State) (w : Word) : State :=
  match s.engines with
  | [] => s
  | e :: rest => { s with engines := e.accept w :: rest, schedule := .perform 0 :: s.schedule }

end Sys2Proof.Machine
end

