-- ==== Sys2Proof/Machine/Step.lean ====
section
/-! DEFINITION. One step of the machine: the first turn of the schedule, and after the last one the enabled engines. -/

namespace Sys2Proof.Machine

/-- Take the first turn of the schedule (log entry 1); with none left, let an enabled engine perform. -/
def step (s : State) : Host.Outcome State Fault Refusal :=
  match s.schedule with
  | [] => s.drainTurn
  | t :: rest => ({ s with schedule := rest } : State).takeTurn t

/-- s with a command word accepted by engine 0, as a CMD write accepts it (40_control R87), and engine 0's perform
step as the next turn, so that the very next step runs that command. A word of more than 32 bits is no command word
and changes nothing. Log entry 6 says how a program comes to run from reset. -/
def State.withFetchWord (s : State) (nbits w : Nat) : State :=
  match tableWord nbits w with
  | none => s
  | some word => s.acceptedNext word

end Sys2Proof.Machine
end

