-- ==== Sys2Proof/Safety.lean ====
section
/-! DEFINITION. The terms claims use: the legal states of an engine and of the machine, runs that have a meaning, and
fair runs. -/

namespace Sys2Proof.Machine

/-- The legal states of an engine. -/
structure Engine.Inv (e : Engine) : Prop where
  /-- BUSY = 1 implies DONE = 0, ERR = 0 and CAUSE = 0 (10_state R17). -/
  busy_clears : e.status.busy = true → e.status.done = false ∧ e.status.err = none ∧ e.status.cause = none
  /-- ERR is the kind CAUSE belongs to, so ERR = 0 exactly when CAUSE = 0 (R17, R123). -/
  err_of_cause : e.status.err = e.status.cause.map ErrorCause.kind
  /-- IBUF is in canonical form and inside its 131072 cells (R35). -/
  ibuf_wf : Memory.wf e.ibuf
  ibuf_bound : ∀ c ∈ e.ibuf, c.1 < Config.ibufBytes
  /-- OBUF holds values in cells 0 to OUT_LEN - 1 and nowhere else (20_memory R57). -/
  obuf_cells : e.obuf.map Prod.fst = List.range e.results.outLen.toNat
  /-- The output fits OBUF: at most 98302 bytes (00_scope R6, 43_frame_codec R116). -/
  out_bound : e.results.outLen.toNat ≤ 98302
  /-- BLOCK_COUNT is at most 32767 (R26). -/
  count_bound : e.results.blockCount.toNat ≤ 32767
  /-- LEN_OUT is at most 32767 (R27). -/
  len_bound : e.results.lenOut.toNat ≤ 32767
  /-- LEN_CONSUMED is 0, 1 or 2, and B1 is 0 when it is 1 (R28, R29). -/
  consumed_bound : e.results.lenConsumed.toNat ≤ 2
  second_byte : e.results.lenConsumed = 1#2 → e.results.winOutB1 = 0#8
  /-- After an error every result register but CRC_OUT is 0 (40_control R91). -/
  error_zeroes : e.status.cause ≠ none → e.results = { ResultRegs.zero with crcOut := e.results.crcOut }
  /-- Only a pending command can be stuck or meet a hazard (R93, 70_reset_and_hazards R147). -/
  stuck_busy : e.stuck = true → e.status.busy = true
  hazard_busy : e.hazard ≠ Hazard.clear → e.status.busy = true

/-- The legal states of the machine: NUM_ENGINES engines, each in a legal state. -/
structure State.Inv (s : State) : Prop where
  engine_count : s.engines.length = Config.numEngines
  engines_legal : ∀ e ∈ s.engines, e.Inv

/-- No model fault has been recorded, so the run so far has a meaning (60_exceptions R134). -/
def State.meaningful (s : State) : Bool := !s.faults.uninitRead && !s.faults.hostHazard

/-! ## Runs -/

/-- A run of the machine by itself: the turns of its schedule, then the enabled engines. -/
def Run (r : Nat → State) : Prop := ∀ k, step (r k) = .next (r (k + 1))

/-- Engine n has its perform step enabled (40_control R89, R93). -/
def State.enabledAt (s : State) (n : Nat) : Bool :=
  match s.engines[n]? with
  | none => false
  | some e => e.enabled

/-- A run in which the agents outside choose every turn, for ever, and which is weakly fair to every engine
(70_reset_and_hazards R153): no engine stays enabled from some point on without taking its perform step. -/
structure FairRun (turns : Nat → Turn) (r : Nat → State) : Prop where
  /-- Step k is the turn `turns k`. -/
  steps : ∀ k, step { r k with schedule := [turns k] } = .next (r (k + 1))
  /-- After every point engine n takes its perform step or is not enabled. -/
  fair : ∀ n k, ∃ j, k ≤ j ∧ (turns j = .perform n ∨ (r j).enabledAt n = false)

/-- The step from s to t ends the pending command w of engine n: it completes (40_control R90, R91), or UNINIT_READ
stops it (R93), or a reset abandons it (70_reset_and_hazards R142). -/
def CommandEnds (n : Nat) (w : Word) (s t : State) : Prop :=
  ∃ a b : Engine, s.engines[n]? = some a ∧ a.enabled = true ∧ a.cmd = w ∧ t.engines[n]? = some b ∧
    ((b.cmd = w ∧ b.status.busy = false ∧ b.status.done = true) ∨
      (b = { a with stuck := true } ∧ t.faults.uninitRead = true) ∨
      (s.schedule.head? = some .reset ∧ b = Engine.reset))

/-- The faults of the first set are all in the second (10_state R40). -/
def FaultSet.subset (f g : FaultSet) : Prop :=
  (f.uninitRead = true → g.uninitRead = true) ∧ (f.hostHazard = true → g.hostHazard = true)

end Sys2Proof.Machine
end

