-- ==== Sys2Proof/Certificates/Slice0/Obligations.lean ====
section
/-! DEFINITION. The statements for the provers. The names under `Sys2Proof.Claims` say in the spec's terms what a
statement is about: wire bytes, input bytes, and the state after a completion. -/

namespace Sys2Proof.Claims

open Sys2Proof.Machine

/-! ## Terms of the statements -/

/-- The pending command of engine e reads IN_LEN = the length of `bytes`, at most IBUF_BYTES, and IBUF[0..IN_LEN) =
`bytes` (30_encoding R70, 20_memory R54). -/
def inputIs (e : Engine) (draw : Nat) (bytes : List Byte) : Prop :=
  (e.seenRegs draw).inLen.toNat = bytes.length ∧ bytes.length ≤ 131072 ∧
    ∀ i, i < bytes.length → Memory.read (e.seenIbuf draw) i = bytes[i]?

/-- The state after the active engine e completed with success (40_control R90): nothing else has changed but the
count of free values drawn. -/
def succeeded (s : State) (e : Engine) (regs : ResultRegs) (out : List Byte) : State :=
  { s with
    engines := s.engines.set s.active
      { e with
        results := regs
        obuf := Memory.ofBytes 0 out
        status := ⟨false, true, e.status.rejected, none, none⟩
        hazard := Hazard.clear }
    draws := s.draws + 1 }

/-- The state after the active engine e completed with `raise kind(cause)`, having computed the checksum crc, or 0
(R91). -/
def failed (s : State) (e : Engine) (kind : ErrorKind) (cause : ErrorCause) (crc : Word) : State :=
  { s with
    engines := s.engines.set s.active
      { e with
        results := ⟨0#32, 0#16, 0#32, 0#32, 0#8, 0#8, 0#2, crc⟩
        obuf := []
        status := ⟨false, true, e.status.rejected, some kind, some cause⟩
        hazard := Hazard.clear }
    draws := s.draws + 1 }

/-- The state with the first turn of its schedule taken off. -/
def without (s : State) (rest : List Turn) : State := { s with schedule := rest }

/-- The commands that read IBUF (R92). -/
def readsIbuf (i : Instr) : Prop := i = .frameEncode ∨ i = .frameDecode ∨ i = .crc32Gen ∨ i = .crc32Check

/-- A length field for a payload of n bytes, in the one-byte or the two-byte form (30_encoding R75, R76). -/
def wireField (long : Bool) (n : Nat) : List Byte :=
  if long then [BitVec.ofNat 8 (128 + n % 128), BitVec.ofNat 8 (n / 128)] else [BitVec.ofNat 8 n]

/-- A block on the wire: its length field is in the two-byte form if `long`. -/
structure WireBlock where
  long : Bool
  block : Block

/-- The form of the length field can carry the payload's length (R78: a decoder takes a two-byte field of any
length up to 32767). -/
def WireBlock.legal (w : WireBlock) : Prop :=
  w.block.payload.length ≤ if w.long then 32767 else 127

/-- The length field is the one the encoder writes (R75, R76). -/
def WireBlock.canonical (w : WireBlock) : Prop := w.long = decide (128 ≤ w.block.payload.length)

/-- Kind, length field, payload (R73). -/
def WireBlock.bytes (w : WireBlock) : List Byte :=
  w.block.kind :: (wireField w.long w.block.payload.length ++ w.block.payload)

/-- The attribute section (R71). -/
def wireSection (ws : List WireBlock) : List Byte := ws.flatMap WireBlock.bytes

/-- The frame before its trailer, for any section bytes (R71). -/
def wireBody (type : Half) (sect : List Byte) : List Byte :=
  packBe16 type ++ packBe16 (BitVec.ofNat 16 sect.length) ++ sect

/-- The frame of a section, for any section bytes (R71). -/
def wireFrame (type : Half) (sect : List Byte) : List Byte :=
  wireBody type sect ++ packLe32 (crc32 (wireBody type sect))

/-- The blocks as the encoder writes them. -/
def encoded (blocks : List Block) : List WireBlock :=
  blocks.map (fun b => ⟨decide (128 ≤ b.payload.length), b⟩)

/-- The packet's blocks have length fields and its section fits 16 bits (43_frame_codec R118). -/
def fits (blocks : List Block) : Prop :=
  (∀ b ∈ blocks, b.payload.length ≤ 32767) ∧ (wireSection (encoded blocks)).length ≤ 65535

/-- A byte string with bit j flipped. -/
def flipBit (f : List Byte) (j : Nat) : List Byte :=
  f.modify (j / 8) (fun b => b ^^^ (1#8 <<< (j % 8)))

/-- A host access that ends in a bus error (60_exceptions R133): misaligned (20_memory R48), not 32 bits wide in the
register page (R47), unmapped (R42, R44), or a write to OBUF (R52). -/
def busErrorAccess (t : Transaction) : Prop :=
  t.off.toNat % t.access.size.bytes ≠ 0 ∨
  (t.off.toNat < 0x100 ∧ t.access.size ≠ .four) ∨
  (0x100 ≤ t.off.toNat ∧ t.off.toNat < 0x20000) ∨
  0x60000 ≤ t.off.toNat ∨
  (0x40000 ≤ t.off.toNat ∧ ∃ d, t.access = .write d)

/-- The value of byte string bs by little-endian lanes, `sum over j of bs[j] << 8j` (R46). -/
def lanesValue : List Byte → Nat
  | [] => 0
  | b :: rest => b.toNat + 256 * lanesValue rest

/-- Byte j of a written value, `v[8j+7:8j]` (R46). -/
def writtenByte (d : WriteData) (j : Nat) : Byte :=
  match d with
  | .byte v => v.extractLsb' (8 * j) 8
  | .half v => v.extractLsb' (8 * j) 8
  | .word v => v.extractLsb' (8 * j) 8

/-- The offsets of the registers a host write does not change: the read-only registers and the reserved offsets
(10_state R14, R31). -/
def readOnlyOffset (off : Nat) : Prop := off = 0 ∨ (0x20 ≤ off ∧ off < 0x100)

/-- Engine e reads the operands of R89 as engine e' does: the input registers and IBUF, each through what the host
wrote while the command was pending. -/
def sameOperands (e e' : Engine) : Prop :=
  e.inputs = e'.inputs ∧ e.ibuf = e'.ibuf ∧ e.hazard = e'.hazard

/-- v is what a 32-bit read of the register page at offset off answers, by the numbers of 10_state R14: the named field
at its place (R15 to R30), reserved bits zero, and zero from 0x03C on (R31). -/
def readsAs (e : Engine) (off : Nat) (v : Word) : Prop :=
  (off = 0x000 → v = 0x48444643#32) ∧
  (off = 0x004 → v = e.cmd) ∧
  (off = 0x008 → v.toNat = e.status.busy.toNat + 2 * e.status.done.toNat + 4 * e.status.rejected.toNat +
    16 * e.status.errCode.toNat + 256 * e.status.causeCode.toNat) ∧
  (off = 0x00C → v.toNat = e.doneIe.toNat) ∧
  (off = 0x010 → v = e.inputs.inLen) ∧
  (off = 0x014 → v.toNat = e.inputs.typeIn.toNat) ∧
  (off = 0x018 → v = e.inputs.lenIn) ∧
  (off = 0x01C → v.toNat = e.inputs.winB0.toNat + 256 * e.inputs.winB1.toNat + 65536 * e.inputs.winSize.toNat) ∧
  (off = 0x020 → v = e.results.outLen) ∧
  (off = 0x024 → v.toNat = e.results.typeOut.toNat) ∧
  (off = 0x028 → v = e.results.blockCount) ∧
  (off = 0x02C → v = e.results.lenOut) ∧
  (off = 0x030 → v.toNat = e.results.winOutB0.toNat + 256 * e.results.winOutB1.toNat) ∧
  (off = 0x034 → v.toNat = e.results.lenConsumed.toNat) ∧
  (off = 0x038 → v = e.results.crcOut) ∧
  (0x03C ≤ off → v = 0#32)

/-- The state right after the host's script has run n lines from s, each on its turn. -/
def afterTurns (s t : State) (n : Nat) : Prop := Host.Core.run Sys2Proof.core n s = .next t

end Sys2Proof.Claims

open Sys2Proof Sys2Proof.Machine Sys2Proof.Claims

/-! ## Command words and the step -/

/-- 30_encoding R67: a decoder matches the whole word. -/
def Obligations.DecoderMatchesWholeWord : Prop :=
  (∀ (w : Word) (i : Instr), decode w = .ok i ↔ w = encode i) ∧
  encode .nop = 0x00000000#32 ∧ encode .frameEncode = 0x00000001#32 ∧ encode .frameDecode = 0x00000002#32 ∧
  encode .lenEncode = 0x00000003#32 ∧ encode .lenDecode = 0x00000004#32 ∧ encode .crc32Gen = 0x00000005#32 ∧
  encode .crc32Check = 0x00000006#32

/-- R67, R68: the words written out, and some reserved words beside them. -/
def Obligations.CommandWordsWrittenOut : Prop :=
  decode 0b00000000000000000000000000000000#32 = .ok .nop ∧
  decode 0b00000000000000000000000000000001#32 = .ok .frameEncode ∧
  decode 0b00000000000000000000000000000010#32 = .ok .frameDecode ∧
  decode 0b00000000000000000000000000000011#32 = .ok .lenEncode ∧
  decode 0b00000000000000000000000000000100#32 = .ok .lenDecode ∧
  decode 0b00000000000000000000000000000101#32 = .ok .crc32Gen ∧
  decode 0b00000000000000000000000000000110#32 = .ok .crc32Check ∧
  decode 0x00000007#32 = .error (.reservedCommand 0x00000007#32) ∧
  decode 0x80000001#32 = .error (.reservedCommand 0x80000001#32) ∧
  decode 0xFFFFFFFF#32 = .error (.reservedCommand 0xFFFFFFFF#32)

/-- 40_control R89: the perform step of a busy engine that no model fault stopped runs the command its held word
decodes to. The step takes the turn off the schedule and makes the engine the active one (log entry 1). -/
def Obligations.StepRunsTheHeldCommand : Prop :=
  ∀ (s : State) (n : Nat) (rest : List Turn) (e : Engine) (i : Instr),
    s.schedule = .perform n :: rest → s.engines[n]? = some e → e.status.busy = true → e.stuck = false →
    decode e.cmd = .ok i →
    step s = exec i { without s rest with active := n }

/-- 70_reset_and_hazards R153: after the schedule's last turn the first engine with an enabled step runs the command
it holds, and if none has one nothing changes. That the lowest number goes first is the model's choice (log entry
25). -/
def Obligations.StepAfterTheLastTurn : Prop :=
  ∀ s : State, s.schedule = [] →
    (∀ (n : Nat) (e : Engine) (i : Instr), s.engines[n]? = some e → e.status.busy = true → e.stuck = false →
      (∀ m, m < n → s.enabledAt m = false) → decode e.cmd = .ok i → step s = exec i { s with active := n }) ∧
    ((∀ n, s.enabledAt n = false) → step s = .next s)

/-- 70_reset_and_hazards R153: in every run of the machine by itself, whatever turns are scheduled, every pending
command that no fault stopped ends: it completes, unless a model fault stops it or a reset abandons it. It ends at the
latest as many steps after the schedule's last turn as there are engines before its own (the model's choice, log
entry 25). -/
def Obligations.EveryRunEndsItsCommands : Prop :=
  ∀ (r : Nat → State) (k n : Nat) (e : Engine), Run r → (r k).engines[n]? = some e → e.enabled = true →
    ∃ j, k ≤ j ∧ j ≤ k + (r k).schedule.length + n ∧ CommandEnds n e.cmd (r j) (r (j + 1))

/-- 70_reset_and_hazards R153: in every weakly fair run, whatever turns the agents take for ever, every pending command
that no fault stopped ends after finitely many steps: it completes, unless a model fault stops it or a reset abandons
it. -/
def Obligations.FairRunsEndTheirCommands : Prop :=
  ∀ (turns : Nat → Turn) (r : Nat → State) (k n : Nat) (e : Engine), FairRun turns r →
    (r k).engines[n]? = some e → e.enabled = true →
    ∃ j, k ≤ j ∧ CommandEnds n e.cmd { r j with schedule := [turns j] } (r (j + 1))

/-- 40_control R95: every reserved word completes with BAD_COMMAND(RESERVED_COMMAND), and CMD still reads it. -/
def Obligations.ReservedWordCompletesWithBadCommand : Prop :=
  ∀ (s : State) (n : Nat) (rest : List Turn) (e : Engine),
    s.schedule = .perform n :: rest → s.engines[n]? = some e → e.status.busy = true → e.stuck = false →
    7 ≤ e.cmd.toNat →
    step s = .next (failed { without s rest with active := n } e .badCommand .reservedCommand 0#32) ∧
    (⟨false, true, false, some .badCommand, some .reservedCommand⟩ : Status).word = 0x00003062#32

/-- 40_control R89: an engine has no step while STATUS.BUSY = 0; R93: nor after a model fault stopped its command. -/
def Obligations.EngineWithoutEnabledStepDoesNothing : Prop :=
  ∀ (s : State) (n : Nat) (rest : List Turn) (e : Engine),
    s.schedule = .perform n :: rest → s.engines[n]? = some e → e.status.busy = false ∨ e.stuck = true →
    step s = .next (without s rest)

/-- 70_reset_and_hazards R153, 40_control R89 to R93: an enabled engine's turn completes its command, whatever word
it holds, or a model fault stops it. -/
def Obligations.EnabledEngineCompletesOrFaults : Prop :=
  ∀ (s : State) (n : Nat) (rest : List Turn) (e : Engine),
    s.schedule = .perform n :: rest → s.engines[n]? = some e → e.status.busy = true → e.stuck = false →
    ∃ t e', step s = .next t ∧ t.engines[n]? = some e' ∧
      ((e'.status.busy = false ∧ e'.status.done = true ∧ t.faults = s.faults) ∨
        (e' = { e with stuck := true } ∧ t.faults.uninitRead = true ∧
          t.faults.hostHazard = s.faults.hostHazard))

/-! ## Acceptance, rejection, acknowledgement, interrupt -/

/-- 40_control R87: a CMD write while idle accepts the word, whatever it is. -/
def Obligations.CmdWriteWhileIdleAccepts : Prop :=
  ∀ (s : State) (n : Nat) (rest : List Turn) (e : Engine) (w : Word),
    s.schedule = .host n ⟨0x00004#19, .write (.word w)⟩ :: rest → s.engines[n]? = some e → e.status.busy = false →
    step s = .next { without s rest with
      engines := s.engines.set n
        { e with
          cmd := w
          status := ⟨true, false, e.status.rejected, none, none⟩
          stuck := false
          hazard := Hazard.clear }
      response := some .written }

/-- 40_control R88: a CMD write while busy sets REJECTED and changes nothing else. -/
def Obligations.CmdWriteWhileBusyIsRejected : Prop :=
  ∀ (s : State) (n : Nat) (rest : List Turn) (e : Engine) (w : Word),
    s.schedule = .host n ⟨0x00004#19, .write (.word w)⟩ :: rest → s.engines[n]? = some e → e.status.busy = true →
    step s = .next { without s rest with
      engines := s.engines.set n { e with status := { e.status with rejected := true } }
      response := some .written }

/-- 10_state R18: a STATUS write clears DONE by bit 1 and REJECTED by bit 2, changes nothing else, and clearing DONE
deasserts the IRQ line. -/
def Obligations.StatusWriteClearsBySetBits : Prop :=
  ∀ (s : State) (n : Nat) (rest : List Turn) (e : Engine) (w : Word),
    s.schedule = .host n ⟨0x00008#19, .write (.word w)⟩ :: rest → s.engines[n]? = some e →
    ∃ e' : Engine,
      step s = .next { without s rest with engines := s.engines.set n e', response := some .written } ∧
      e' = { e with status := e'.status } ∧
      e'.status = { e.status with
        done := if w.getLsbD 1 then false else e.status.done
        rejected := if w.getLsbD 2 then false else e.status.rejected } ∧
      (w.getLsbD 1 = true → e'.irq = false)

/-- 10_state R17: every field of the STATUS word at its place, and zero in the reserved bits. -/
def Obligations.StatusWordHasItsFields : Prop :=
  ∀ st : Status,
    (st.word.getLsbD 0 = st.busy ∧ st.word.getLsbD 1 = st.done ∧ st.word.getLsbD 2 = st.rejected ∧
      st.word.getLsbD 3 = false) ∧
    st.word.toNat / 16 % 16 = st.errCode.toNat ∧ st.word.toNat / 256 % 256 = st.causeCode.toNat ∧
    st.word.toNat < 65536

/-- 60_exceptions R122, R123: STATUS after `raise KIND(CAUSE)` for every cause, with REJECTED clear; a cause always
comes with its kind. -/
def Obligations.StatusOfEachCause : Prop :=
  ∀ st : Status, st.rejected = false →
    (st.failed .frameShort).word = 0x00000112#32 ∧ (st.failed .crcMismatch).word = 0x00000222#32 ∧
    (st.failed .sectionLenMismatch).word = 0x00000312#32 ∧ (st.failed .blockOverrun).word = 0x00000412#32 ∧
    (st.failed .checkShort).word = 0x00000512#32 ∧ (st.failed .payloadTooLong).word = 0x00001032#32 ∧
    (st.failed .sectionTooLong).word = 0x00001132#32 ∧ (st.failed .windowSize).word = 0x00001842#32 ∧
    (st.failed .recordHeaderShort).word = 0x00002052#32 ∧ (st.failed .recordPayloadShort).word = 0x00002152#32 ∧
    (st.failed .reservedCommand).word = 0x00003062#32 ∧ (st.failed .inLenRange).word = 0x00003872#32 ∧
    (st.succeeded).word = 0x00000002#32

/-- 10_state R39, 60_exceptions R126: the IRQ line is low after an acceptance, and after a completion, with or
without error, it is DONE_IE; a write of IRQ_EN sets it to DONE and the written enable. -/
def Obligations.IrqFollowsDoneAndEnable : Prop :=
  (∀ (e : Engine) (w : Word), (e.accept w).irq = false) ∧
  (∀ (i : Instr) (s t : State) (e e' : Engine),
    s.engines[s.active]? = some e → e.status.busy = true → exec i s = .next t →
    t.engines[s.active]? = some e' →
    (e'.status.busy = false → e'.irq = e.doneIe) ∧ (e'.status.busy = true → e'.irq = e.irq)) ∧
  (∀ (s : State) (n : Nat) (rest : List Turn) (e : Engine) (w : Word),
    s.schedule = .host n ⟨0x0000C#19, .write (.word w)⟩ :: rest → s.engines[n]? = some e →
    ∃ e' : Engine,
      step s = .next { without s rest with engines := s.engines.set n e', response := some .written } ∧
      e' = { e with doneIe := w.getLsbD 0 } ∧ e'.irq = (e.status.done && w.getLsbD 0))

/-! ## The commands -/

/-- 40_control R94: NOP completes with no error and no result. -/
def Obligations.NopCompletesWithNoResult : Prop :=
  ∀ (s : State) (e : Engine), s.engines[s.active]? = some e →
    exec .nop s = .next (succeeded s e ⟨0#32, 0#16, 0#32, 0#32, 0#8, 0#8, 0#2, 0#32⟩ [])

/-- 41_length_codec R99: LEN_ENCODE on every LEN_IN and WIN_SIZE. -/
def Obligations.LenEncodeResult : Prop :=
  ∀ (s : State) (e : Engine) (v : Nat) (ws : Byte), s.engines[s.active]? = some e →
    (e.seenRegs s.draws).lenIn.toNat = v → (e.seenRegs s.draws).winSize = ws →
    (ws ≠ 2#8 →
      exec .lenEncode s = .next (failed s e .invalidLengthBufferSize .windowSize 0#32)) ∧
    (ws = 2#8 → v ≤ 127 →
      exec .lenEncode s = .next (succeeded s e ⟨0#32, 0#16, 0#32, 0#32, BitVec.ofNat 8 v, 0#8, 1#2, 0#32⟩ [])) ∧
    (ws = 2#8 → 128 ≤ v → v ≤ 32767 →
      exec .lenEncode s = .next (succeeded s e
        ⟨0#32, 0#16, 0#32, 0#32, BitVec.ofNat 8 (128 + v % 128), BitVec.ofNat 8 (v / 128), 2#2, 0#32⟩ [])) ∧
    (ws = 2#8 → 32768 ≤ v →
      exec .lenEncode s = .next (failed s e .lengthEncodingUnsupported .payloadTooLong 0#32)) ∧
    (⟨false, true, false, some .invalidLengthBufferSize, some .windowSize⟩ : Status).word = 0x00001842#32 ∧
    (⟨false, true, false, some .lengthEncodingUnsupported, some .payloadTooLong⟩ : Status).word = 0x00001032#32

/-- 41_length_codec R100: LEN_DECODE on every window. -/
def Obligations.LenDecodeResult : Prop :=
  ∀ (s : State) (e : Engine) (b0 b1 ws : Byte), s.engines[s.active]? = some e →
    (e.seenRegs s.draws).winB0 = b0 → (e.seenRegs s.draws).winB1 = b1 → (e.seenRegs s.draws).winSize = ws →
    (ws ≠ 2#8 →
      exec .lenDecode s = .next (failed s e .invalidLengthBufferSize .windowSize 0#32)) ∧
    (ws = 2#8 → b0.toNat ≤ 127 →
      exec .lenDecode s = .next (succeeded s e
        ⟨0#32, 0#16, 0#32, BitVec.ofNat 32 b0.toNat, 0#8, 0#8, 1#2, 0#32⟩ [])) ∧
    (ws = 2#8 → 128 ≤ b0.toNat →
      exec .lenDecode s = .next (succeeded s e
        ⟨0#32, 0#16, 0#32, BitVec.ofNat 32 (b0.toNat - 128 + 128 * b1.toNat), 0#8, 0#8, 2#2, 0#32⟩ [])) ∧
    (⟨false, true, false, some .invalidLengthBufferSize, some .windowSize⟩ : Status).word = 0x00001842#32

/-- 41_length_codec R101, which the spec marks as derived: a length decodes from its own field, and `80 00` is
decoded though never produced. -/
def Obligations.LengthFieldRoundTrip : Prop :=
  (∀ v : Nat, v ≤ 32767 →
    (∃ b0, lenEnc v 2 = .ok (.one b0) ∧ ∀ b1, lenDec b0 b1 2 = .ok ⟨v, 1⟩) ∨
    (∃ b0 b1, lenEnc v 2 = .ok (.two b0 b1) ∧ lenDec b0 b1 2 = .ok ⟨v, 2⟩)) ∧
  lenDec 0x80#8 0x00#8 2 = .ok ⟨0, 2⟩ ∧ lenEnc 0 2 = .ok (.one 0x00#8)

/-- 42_checksum R106: CRC32_GEN of every message that IBUF can hold, and of an IN_LEN above IBUF_BYTES. -/
def Obligations.CrcGenResult : Prop :=
  (∀ (s : State) (e : Engine) (m : List Byte), s.engines[s.active]? = some e → inputIs e s.draws m →
    exec .crc32Gen s = .next (succeeded s e ⟨0#32, 0#16, 0#32, 0#32, 0#8, 0#8, 0#2, crc32 m⟩ [])) ∧
  (∀ (s : State) (e : Engine), s.engines[s.active]? = some e → 131072 < (e.seenRegs s.draws).inLen.toNat →
    exec .crc32Gen s = .next (failed s e .paramRange .inLenRange 0#32)) ∧
  (⟨false, true, false, some .paramRange, some .inLenRange⟩ : Status).word = 0x00003872#32

/-- 42_checksum R107: CRC32_CHECK of an IN_LEN above IBUF_BYTES, of every message of fewer than 4 bytes, and of every
message m with every trailer c. -/
def Obligations.CrcCheckResult : Prop :=
  (∀ (s : State) (e : Engine), s.engines[s.active]? = some e → 131072 < (e.seenRegs s.draws).inLen.toNat →
    exec .crc32Check s = .next (failed s e .paramRange .inLenRange 0#32)) ∧
  (∀ (s : State) (e : Engine) (f : List Byte), s.engines[s.active]? = some e → inputIs e s.draws f →
    f.length < 4 → exec .crc32Check s = .next (failed s e .truncatedInput .checkShort 0#32)) ∧
  (∀ (s : State) (e : Engine) (m : List Byte) (c : Word), s.engines[s.active]? = some e →
    inputIs e s.draws (m ++ packLe32 c) →
    (c = crc32 m →
      exec .crc32Check s = .next (succeeded s e ⟨0#32, 0#16, 0#32, 0#32, 0#8, 0#8, 0#2, crc32 m⟩ [])) ∧
    (c ≠ crc32 m →
      exec .crc32Check s = .next (failed s e .invalidChecksum .crcMismatch (crc32 m)))) ∧
  (⟨false, true, false, some .paramRange, some .inLenRange⟩ : Status).word = 0x00003872#32 ∧
  (⟨false, true, false, some .truncatedInput, some .checkShort⟩ : Status).word = 0x00000512#32 ∧
  (⟨false, true, false, some .invalidChecksum, some .crcMismatch⟩ : Status).word = 0x00000222#32

/-- 42_checksum R102: the checksums the spec gives (95_test_vectors S1 to S3, CG1 to CG9). -/
def Obligations.CrcOfTheGivenMessages : Prop :=
  crc32 [] = 0x00000000#32 ∧ crc32 [0x00#8] = 0xD202EF8D#32 ∧ crc32 [0xFF#8] = 0xFF000000#32 ∧
  crc32 [0x61#8] = 0xE8B7BE43#32 ∧ crc32 [0#8, 0#8, 0#8, 0#8] = 0x2144DF1C#32 ∧
  crc32 [0xFF#8, 0xFF#8, 0xFF#8, 0xFF#8] = 0xFFFFFFFF#32 ∧
  crc32 [0x00#8, 0x01#8, 0x00#8, 0x03#8, 0x02#8, 0x01#8, 0xFF#8] = 0x7318A997#32 ∧
  crc32 [0x00#8, 0x02#8, 0x00#8, 0x08#8, 0x03#8, 0x01#8, 0xFF#8, 0x04#8, 0x03#8, 0xAA#8, 0xBB#8, 0xCC#8] =
    0xF264525D#32 ∧
  crc32 [0x31#8, 0x32#8, 0x33#8, 0x34#8, 0x35#8, 0x36#8, 0x37#8, 0x38#8, 0x39#8] = 0xCBF43926#32

/-- 42_checksum R103, R104: the field packers on every value. -/
def Obligations.PackersAreInverse : Prop :=
  (∀ v : Half, packBe16 v = [BitVec.ofNat 8 (v.toNat / 256), BitVec.ofNat 8 (v.toNat % 256)]) ∧
  (∀ x y : Byte, (be16 x y).toNat = 256 * x.toNat + y.toNat) ∧
  (∀ v : Word, packLe32 v = [BitVec.ofNat 8 (v.toNat % 256), BitVec.ofNat 8 (v.toNat / 256 % 256),
    BitVec.ofNat 8 (v.toNat / 65536 % 256), BitVec.ofNat 8 (v.toNat / 16777216)]) ∧
  (∀ a b c d : Byte, (leWord [a, b, c, d]).toNat =
    a.toNat + 256 * b.toNat + 65536 * c.toNat + 16777216 * d.toNat)

/-- 43_frame_codec R112, R111: FRAME_ENCODE of every packet that fits writes its frame. -/
def Obligations.FrameEncodeOfPacketThatFits : Prop :=
  ∀ (s : State) (e : Engine) (blocks : List Block), s.engines[s.active]? = some e → fits blocks →
    inputIs e s.draws (image blocks) →
    exec .frameEncode s = .next (succeeded s e
      ⟨BitVec.ofNat 32 (8 + (wireSection (encoded blocks)).length), 0#16, BitVec.ofNat 32 blocks.length, 0#32, 0#8,
        0#8, 0#2, crc32 (wireBody (e.seenRegs s.draws).typeIn (wireSection (encoded blocks)))⟩
      (wireFrame (e.seenRegs s.draws).typeIn (wireSection (encoded blocks))))

/-- 43_frame_codec R109: after any whole records with legal lengths, a record whose header is short, whose payload is
short, or whose payload is too long fails, in that order of checks. -/
def Obligations.FrameEncodeImageErrors : Prop :=
  ∀ (s : State) (e : Engine) (blocks : List Block) (tail : List Byte), s.engines[s.active]? = some e →
    (∀ b ∈ blocks, b.payload.length ≤ 32767) → inputIs e s.draws (image blocks ++ tail) →
    (tail.length = 1 ∨ tail.length = 2 →
      exec .frameEncode s = .next (failed s e .imageMalformed .recordHeaderShort 0#32)) ∧
    (∀ (k : Byte) (len : Half) (body : List Byte), tail = k :: (packBe16 len ++ body) →
      (body.length < len.toNat →
        exec .frameEncode s = .next (failed s e .imageMalformed .recordPayloadShort 0#32)) ∧
      (len.toNat ≤ body.length → 32767 < len.toNat →
        exec .frameEncode s = .next (failed s e .lengthEncodingUnsupported .payloadTooLong 0#32)))

/-- 43_frame_codec R110: a section of more than 65535 bytes. -/
def Obligations.FrameEncodeSectionTooLong : Prop :=
  ∀ (s : State) (e : Engine) (blocks : List Block), s.engines[s.active]? = some e →
    (∀ b ∈ blocks, b.payload.length ≤ 32767) → inputIs e s.draws (image blocks) →
    65535 < (wireSection (encoded blocks)).length →
    exec .frameEncode s = .next (failed s e .lengthEncodingUnsupported .sectionTooLong 0#32)

/-- 43_frame_codec R113, R114: the fast failures of FRAME_DECODE, in order; a checksum failure comes before any field
is interpreted. -/
def Obligations.FrameDecodeFastFailures : Prop :=
  (∀ (s : State) (e : Engine) (f : List Byte), s.engines[s.active]? = some e → inputIs e s.draws f →
    f.length < 8 → exec .frameDecode s = .next (failed s e .truncatedInput .frameShort 0#32)) ∧
  (∀ (s : State) (e : Engine) (m : List Byte) (c : Word), s.engines[s.active]? = some e →
    inputIs e s.draws (m ++ packLe32 c) → 4 ≤ m.length →
    (c ≠ crc32 m →
      exec .frameDecode s = .next (failed s e .invalidChecksum .crcMismatch (crc32 m))) ∧
    (∀ (type n : Half) (sect : List Byte), c = crc32 m → m = packBe16 type ++ packBe16 n ++ sect →
      n.toNat ≠ sect.length →
      exec .frameDecode s = .next (failed s e .truncatedInput .sectionLenMismatch (crc32 m))))

/-- 43_frame_codec R115, R116, R117: FRAME_DECODE of every frame whose section is a sequence of blocks, in either form
of the length field, writes the packet image. -/
def Obligations.FrameDecodeOfBlocks : Prop :=
  ∀ (s : State) (e : Engine) (type : Half) (ws : List WireBlock), s.engines[s.active]? = some e →
    (∀ w ∈ ws, w.legal) → (wireSection ws).length ≤ 65535 →
    inputIs e s.draws (wireFrame type (wireSection ws)) →
    exec .frameDecode s = .next (succeeded s e
      ⟨BitVec.ofNat 32 (image (ws.map WireBlock.block)).length, type, BitVec.ofNat 32 ws.length, 0#32, 0#8, 0#8,
        0#2, crc32 (wireBody type (wireSection ws))⟩
      (image (ws.map WireBlock.block)))

/-- 43_frame_codec R115: after any whole blocks, a lone kind byte, a two-byte length field cut short, and a payload
that runs past the section all fail with BLOCK_OVERRUN, whatever the trailer bytes are. -/
def Obligations.FrameDecodeBlockOverrun : Prop :=
  ∀ (s : State) (e : Engine) (type : Half) (ws : List WireBlock) (bad : List Byte),
    s.engines[s.active]? = some e → (∀ w ∈ ws, w.legal) → (wireSection ws ++ bad).length ≤ 65535 →
    inputIs e s.draws (wireFrame type (wireSection ws ++ bad)) →
    ((∃ k, bad = [k]) ∨ (∃ k b0, bad = [k, b0] ∧ 128 ≤ b0.toNat) ∨
      (∃ k long n body, bad = k :: (wireField long n ++ body) ∧ n ≤ (if long then 32767 else 127) ∧
        body.length < n)) →
    exec .frameDecode s = .next
      (failed s e .truncatedInput .blockOverrun (crc32 (wireBody type (wireSection ws ++ bad))))

/-- 43_frame_codec R118, which the spec marks as derived: FRAME_DECODE of what FRAME_ENCODE wrote gives the packet
back. The second engine's input is the first engine's output buffer. -/
def Obligations.FrameRoundTrip : Prop :=
  ∀ (s : State) (e : Engine) (blocks : List Block), s.engines[s.active]? = some e → fits blocks →
    inputIs e s.draws (image blocks) →
    ∃ t e', exec .frameEncode s = .next t ∧ t.engines[s.active]? = some e' ∧ e'.status.err = none ∧
      ∀ (s2 : State) (e2 : Engine), s2.engines[s2.active]? = some e2 →
        (e2.seenRegs s2.draws).inLen = e'.results.outLen →
        (∀ i, i < e'.results.outLen.toNat → Memory.read (e2.seenIbuf s2.draws) i = Memory.read e'.obuf i) →
        ∃ t2 e2', exec .frameDecode s2 = .next t2 ∧ t2.engines[s2.active]? = some e2' ∧
          e2'.status.err = none ∧ e2'.results.typeOut = (e.seenRegs s.draws).typeIn ∧
          e2'.results.blockCount.toNat = blocks.length ∧
          e2'.results.outLen.toNat = (image blocks).length ∧
          ∀ i, Memory.read e2'.obuf i = (image blocks)[i]?

/-- 43_frame_codec R119, which the spec marks as derived: FRAME_ENCODE of a decoded image gives the frame again
exactly when every length field of the frame is canonical. -/
def Obligations.ReencodeGivesTheFrameWhenCanonical : Prop :=
  ∀ (s : State) (e : Engine) (ws : List WireBlock), s.engines[s.active]? = some e →
    (∀ w ∈ ws, w.legal) → (wireSection ws).length ≤ 65535 →
    inputIs e s.draws (image (ws.map WireBlock.block)) →
    ∃ t e', exec .frameEncode s = .next t ∧ t.engines[s.active]? = some e' ∧ e'.status.err = none ∧
      ((∀ i, Memory.read e'.obuf i = (wireFrame (e.seenRegs s.draws).typeIn (wireSection ws))[i]?) ↔
        ∀ w ∈ ws, w.canonical)

/-- 42_checksum R108, 43_frame_codec R120: FRAME_DECODE of a frame with a valid checksum and one bit flipped anywhere
fails with INVALID_CHECKSUM; so does CRC32_CHECK. R108 rests on general knowledge of CRCs (G3). -/
def Obligations.SingleBitFlipIsDetected : Prop :=
  ∀ (s : State) (e : Engine) (f : List Byte) (j : Nat), s.engines[s.active]? = some e →
    crcOk f = true → j < 8 * f.length → inputIs e s.draws (flipBit f j) →
    (8 ≤ f.length →
      exec .frameDecode s =
        .next (failed s e .invalidChecksum .crcMismatch (crc32 (message (flipBit f j))))) ∧
    (4 ≤ f.length →
      exec .crc32Check s =
        .next (failed s e .invalidChecksum .crcMismatch (crc32 (message (flipBit f j)))))

/-- 40_control R92: an IN_LEN above IBUF_BYTES fails before every other check of the four IBUF commands. -/
def Obligations.InLenRangeComesFirst : Prop :=
  ∀ (i : Instr) (s : State) (e : Engine), readsIbuf i → s.engines[s.active]? = some e →
    131072 < (e.seenRegs s.draws).inLen.toNat →
    exec i s = .next (failed s e .paramRange .inLenRange 0#32)

/-- 40_control R93: a cell below IN_LEN with no value records UNINIT_READ and leaves the engine busy with no further
step; nothing else changes. -/
def Obligations.UnwrittenInputStopsTheCommand : Prop :=
  ∀ (i : Instr) (s : State) (e : Engine) (k : Nat), readsIbuf i → s.engines[s.active]? = some e →
    (e.seenRegs s.draws).inLen.toNat ≤ 131072 → k < (e.seenRegs s.draws).inLen.toNat →
    Memory.read (e.seenIbuf s.draws) k = none →
    exec i s = .next { s with
      engines := s.engines.set s.active { e with stuck := true }
      faults := { s.faults with uninitRead := true }
      draws := s.draws + 1 }

/-! ## What a command changes and what it depends on -/

/-- 20_memory R56, 40_control R90, R91, 70_reset_and_hazards R149: what every command leaves unchanged: CMD, IRQ_EN,
REJECTED, the input registers and every IBUF byte of its own engine, every other engine, and the rest of the state;
the model fault set too, unless the command read a cell with no value. The result registers, OBUF, and the rest of
STATUS are what a completion writes. -/
def Obligations.CommandFrame : Prop :=
  ∀ (i : Instr) (s t : State) (e : Engine), s.engines[s.active]? = some e → exec i s = .next t →
    ∃ e', t.engines[s.active]? = some e' ∧
      e'.cmd = e.cmd ∧ e'.doneIe = e.doneIe ∧ e'.status.rejected = e.status.rejected ∧ e'.inputs = e.inputs ∧
      (∀ a, Memory.read e'.ibuf a = Memory.read e.ibuf a) ∧
      (∀ n, n ≠ s.active → t.engines[n]? = s.engines[n]?) ∧
      t.schedule = s.schedule ∧ t.active = s.active ∧ t.response = s.response ∧ t.script = s.script ∧
      (t.faults = s.faults ∨ (e'.stuck = true ∧ e'.results = e.results ∧ e'.status = e.status ∧
        ∀ a, Memory.read e'.obuf a = Memory.read e.obuf a))

/-- 20_memory R57: after every completion OBUF holds a value in the cells below OUT_LEN and in no other; after an
error OUT_LEN = 0. The premise says that the command did not stop on a cell with no value. -/
def Obligations.OutputBufferAfterCompletion : Prop :=
  ∀ (i : Instr) (s t : State) (e e' : Engine), s.engines[s.active]? = some e → e.status.busy = true →
    exec i s = .next t → t.engines[s.active]? = some e' → e'.status.busy = false →
    (∀ a, (Memory.read e'.obuf a).isSome ↔ a < e'.results.outLen.toNat) ∧
    (e'.status.err ≠ none → e'.results.outLen = 0#32)

/-- 40_control R89: a command's result is a function of its word and its inputs alone. Two engines with the same
operands, whatever else differs in them and around them, end with the same results, OBUF, ERR and CAUSE. The premise
on the free values drawn says that any free inputs are the same. -/
def Obligations.ResultDependsOnOperandsOnly : Prop :=
  ∀ (i : Instr) (s s2 : State) (e e2 : Engine),
    s.engines[s.active]? = some e → s2.engines[s2.active]? = some e2 → sameOperands e e2 → s.draws = s2.draws →
    ∃ t t2 e' e2', exec i s = .next t ∧ exec i s2 = .next t2 ∧
      t.engines[s.active]? = some e' ∧ t2.engines[s2.active]? = some e2' ∧
      ((e'.results = e2'.results ∧ e'.obuf = e2'.obuf ∧ e'.status.err = e2'.status.err ∧
          e'.status.cause = e2'.status.cause) ∨
        (e' = { e with stuck := true } ∧ e2' = { e2 with stuck := true }))

/-- 20_memory R60: a command whose inputs were not written while it was pending reads the registers and the cells the
host's earlier accesses left. The second clause is the model's choice: it speaks of a command with inputs written while
it was pending, a run that 60_exceptions R134 gives no meaning, and it rests on log entry 4 (unsafe there) and on the
hidden record of log entry 14. -/
def Obligations.CommandReadsWhatWasLeft : Prop :=
  ∀ (e : Engine) (draw : Nat),
    (e.hazard = Hazard.clear → e.seenRegs draw = e.inputs ∧
      ∀ a, Memory.read (e.seenIbuf draw) a = Memory.read e.ibuf a) ∧
    (∀ a, a ∉ e.hazard.cells → Memory.read (e.seenIbuf draw) a = Memory.read e.ibuf a)

/-! ## Host accesses -/

/-- 60_exceptions R133, 20_memory R44, R47, R48, R52: exactly the accesses of R133 end in a bus error, which changes
no state of any engine. -/
def Obligations.BusErrorsChangeNothing : Prop :=
  ∀ (s : State) (n : Nat) (rest : List Turn) (e : Engine) (t : Transaction),
    s.schedule = .host n t :: rest → s.engines[n]? = some e →
    (busErrorAccess t → step s = .next { without s rest with response := some .busError }) ∧
    (¬ busErrorAccess t → ∃ s', step s = .next s' ∧ s'.response ≠ some .busError)

/-- 20_memory R46, R42: a host write to IBUF stores `v[8j+7:8j]` in cell a+j and changes no other cell; while idle
nothing else changes. -/
def Obligations.IbufWriteStoresItsLanes : Prop :=
  ∀ (s : State) (n : Nat) (rest : List Turn) (e : Engine) (off : BitVec 19) (d : WriteData),
    s.schedule = .host n ⟨off, .write d⟩ :: rest → s.engines[n]? = some e → e.status.busy = false →
    off.toNat % d.size.bytes = 0 → 0x20000 ≤ off.toNat → off.toNat < 0x40000 →
    ∃ e' : Engine,
      step s = .next { without s rest with engines := s.engines.set n e', response := some .written } ∧
      e' = { e with ibuf := e'.ibuf } ∧
      (∀ j, j < d.size.bytes → Memory.read e'.ibuf (off.toNat - 0x20000 + j) = some (writtenByte d j)) ∧
      (∀ a, a < off.toNat - 0x20000 ∨ off.toNat - 0x20000 + d.size.bytes ≤ a →
        Memory.read e'.ibuf a = Memory.read e.ibuf a)

/-- 20_memory R46, R53: a host read of buffer cells gives their value by little-endian lanes; if one of them holds no
value it gives none and records UNINIT_READ. OBUF is read so while idle. Nothing else changes. -/
def Obligations.BufferReadGivesLanesOrFaults : Prop :=
  ∀ (s : State) (n : Nat) (rest : List Turn) (e : Engine) (off : BitVec 19) (size : AccessSize) (buf : Memory)
    (a : Nat),
    s.schedule = .host n ⟨off, .read size⟩ :: rest → s.engines[n]? = some e → off.toNat % size.bytes = 0 →
    (0x20000 ≤ off.toNat ∧ off.toNat < 0x40000 ∧ buf = e.ibuf ∧ a = off.toNat - 0x20000 ∨
      0x40000 ≤ off.toNat ∧ off.toNat < 0x60000 ∧ e.status.busy = false ∧ buf = e.obuf ∧
        a = off.toNat - 0x40000) →
    (∀ cells : List Byte, cells.length = size.bytes →
      (∀ j, j < size.bytes → Memory.read buf (a + j) = cells[j]?) →
      ∃ v : Word, v.toNat = lanesValue cells ∧
        step s = .next { without s rest with response := some (.data v) }) ∧
    (∀ j, j < size.bytes → Memory.read buf (a + j) = none →
      step s = .next { without s rest with
        faults := { s.faults with uninitRead := true }
        response := some .noValue })

/-- 70_reset_and_hazards R148: while busy, a read of a result register or of OBUF returns some value of the access's
width, records no fault and changes no engine; the value is the model's free draw (log entry 3), so the statement says
nothing of it. That a cell of OBUF with no value records no fault then is read from 93 U4 (log entry 15). Reads of the
other registers return their current values. -/
def Obligations.ReadsWhileBusy : Prop :=
  ∀ (s : State) (n : Nat) (rest : List Turn) (e : Engine) (off : BitVec 19) (size : AccessSize),
    s.schedule = .host n ⟨off, .read size⟩ :: rest → s.engines[n]? = some e → e.status.busy = true →
    off.toNat % size.bytes = 0 →
    ((size = .four ∧ 0x20 ≤ off.toNat ∧ off.toNat < 0x3C) ∨ (0x40000 ≤ off.toNat ∧ off.toNat < 0x60000) →
      ∃ v : Word, v.toNat < 256 ^ size.bytes ∧
        step s = .next { without s rest with response := some (.data v), draws := s.draws + 1 }) ∧
    (size = .four → off.toNat < 0x20 ∨ (0x3C ≤ off.toNat ∧ off.toNat < 0x100) →
      ∃ v : Word, readsAs e off.toNat v ∧ step s = .next { without s rest with response := some (.data v) })

/-- 10_state R14 to R17, R19 to R31: what a 32-bit read answers at every offset of the register page while the engine
is idle; nothing else changes. -/
def Obligations.RegisterReadsWhileIdle : Prop :=
  ∀ (s : State) (n : Nat) (rest : List Turn) (e : Engine) (off : BitVec 19),
    s.schedule = .host n ⟨off, .read .four⟩ :: rest → s.engines[n]? = some e → e.status.busy = false →
    off.toNat % 4 = 0 → off.toNat < 0x100 →
    ∃ v : Word, readsAs e off.toNat v ∧ step s = .next { without s rest with response := some (.data v) }

/-- 10_state R20 to R23, R19: a 32-bit write to an input register or to IRQ_EN, and what the register reads then: the
reserved bits are zero. While idle nothing else changes. -/
def Obligations.InputRegisterWriteAndReadBack : Prop :=
  ∀ (s : State) (n : Nat) (rest : List Turn) (e : Engine) (off : BitVec 19) (w : Word),
    s.schedule = .host n ⟨off, .write (.word w)⟩ :: rest → s.engines[n]? = some e → e.status.busy = false →
    off = 0x0000C#19 ∨ off = 0x00010#19 ∨ off = 0x00014#19 ∨ off = 0x00018#19 ∨ off = 0x0001C#19 →
    ∃ e' : Engine,
      step s = .next { without s rest with engines := s.engines.set n e', response := some .written } ∧
      e' = { e with inputs := e'.inputs, doneIe := e'.doneIe } ∧
      (∀ r : Reg, r ≠ Reg.at off.toNat → e'.readReg r = e.readReg r) ∧
      (off = 0x0000C#19 → (e'.readReg .irqEn).toNat = w.toNat % 2) ∧
      (off = 0x00010#19 → e'.readReg .inLen = w) ∧
      (off = 0x00014#19 → (e'.readReg .typeIn).toNat = w.toNat % 65536) ∧
      (off = 0x00018#19 → e'.readReg .lenIn = w) ∧
      (off = 0x0001C#19 → (e'.readReg .lenWinIn).toNat = w.toNat % 16777216)

/-- 10_state R31, R15: a 32-bit write to ID, to a result register or to a reserved offset is ignored, with no bus
error; ID reads 0x48444643 and a reserved offset reads zero. -/
def Obligations.ReadOnlyRegistersIgnoreWrites : Prop :=
  ∀ (s : State) (n : Nat) (rest : List Turn) (e : Engine) (off : BitVec 19) (w : Word),
    s.schedule = .host n ⟨off, .write (.word w)⟩ :: rest → s.engines[n]? = some e → off.toNat % 4 = 0 →
    readOnlyOffset off.toNat →
    step s = .next { without s rest with response := some .written } ∧
    (off.toNat = 0 → e.readReg (Reg.at off.toNat) = 0x48444643#32) ∧
    (0x3C ≤ off.toNat → e.readReg (Reg.at off.toNat) = 0#32)

/-- 20_memory R51: no host read changes an engine. -/
def Obligations.ReadsHaveNoSideEffect : Prop :=
  ∀ (s : State) (n : Nat) (rest : List Turn) (e : Engine) (off : BitVec 19) (size : AccessSize),
    s.schedule = .host n ⟨off, .read size⟩ :: rest → s.engines[n]? = some e →
    ∃ t, step s = .next t ∧ t.engines = s.engines ∧ t.faults.hostHazard = s.faults.hostHazard ∧
      t.schedule = rest ∧ t.active = s.active ∧ t.script = s.script

/-- 70_reset_and_hazards R147: a write of an input register or of IBUF while busy records HOST_HAZARD and stores its
value as usual, and the pending command, STATUS and the results stay; a write of IRQ_EN or STATUS records none. -/
def Obligations.InputWritesWhileBusyAreHazards : Prop :=
  ∀ (s : State) (n : Nat) (rest : List Turn) (e : Engine) (off : BitVec 19) (d : WriteData),
    s.schedule = .host n ⟨off, .write d⟩ :: rest → s.engines[n]? = some e → e.status.busy = true →
    off.toNat % d.size.bytes = 0 →
    (d.size = .four ∧ 0x10 ≤ off.toNat ∧ off.toNat < 0x20 ∨ 0x20000 ≤ off.toNat ∧ off.toNat < 0x40000 →
      ∃ e' : Engine,
        step s = .next { without s rest with
          engines := s.engines.set n e'
          faults := { s.faults with hostHazard := true }
          response := some .written } ∧
        e' = { e with inputs := e'.inputs, ibuf := e'.ibuf, hazard := e'.hazard } ∧
        (∀ w, d = .word w → off = 0x00010#19 → e'.inputs = { e.inputs with inLen := w }) ∧
        (∀ w, d = .word w → off = 0x00014#19 →
          e'.inputs = { e.inputs with typeIn := BitVec.ofNat 16 (w.toNat % 65536) }) ∧
        (∀ w, d = .word w → off = 0x00018#19 → e'.inputs = { e.inputs with lenIn := w }) ∧
        (∀ w, d = .word w → off = 0x0001C#19 → e'.inputs = { e.inputs with
          winB0 := BitVec.ofNat 8 (w.toNat % 256)
          winB1 := BitVec.ofNat 8 (w.toNat / 256 % 256)
          winSize := BitVec.ofNat 8 (w.toNat / 65536 % 256) }) ∧
        (off.toNat < 0x20 → e'.ibuf = e.ibuf) ∧
        (0x20000 ≤ off.toNat → e'.inputs = e.inputs ∧
          (∀ j, j < d.size.bytes →
            Memory.read e'.ibuf (off.toNat - 0x20000 + j) = some (writtenByte d j)) ∧
          ∀ a, a < off.toNat - 0x20000 ∨ off.toNat - 0x20000 + d.size.bytes ≤ a →
            Memory.read e'.ibuf a = Memory.read e.ibuf a)) ∧
    (d.size = .four ∧ (off = 0x00008#19 ∨ off = 0x0000C#19) →
      ∃ t, step s = .next t ∧ t.faults = s.faults)

/-- 70_reset_and_hazards R149, 20_memory R52, 10_state R32: no host access writes a result register or a byte of OBUF
of any engine, busy or not. -/
def Obligations.HostAccessesKeepResultsAndOutput : Prop :=
  ∀ (s s' : State) (rest : List Turn) (n m : Nat) (t : Transaction) (e : Engine),
    s.schedule = .host n t :: rest → s.engines[m]? = some e → step s = .next s' →
    ∃ e', s'.engines[m]? = some e' ∧ e'.results = e.results ∧
      ∀ a, Memory.read e'.obuf a = Memory.read e.obuf a

/-- 20_memory R43: engine k's window starts at ENGINE_BASE + k * 0x80000, for any base, and an access at a platform
address in it is the access at that offset of engine k. -/
def Obligations.PlatformAddressReachesItsEngine : Prop :=
  Config.engineWindow = 0x80000 ∧ ∀ (s : State) (k : Nat) (rest : List Turn) (e : Engine) (off : BitVec 19) (a : Access),
    s.engines[k]? = some e →
    step { s with schedule := .bus (Config.engineBase + k * Config.engineWindow + off.toNat) a :: rest } =
      step { s with schedule := .host k ⟨off, a⟩ :: rest }

/-- 30_encoding R84: a script line issues the transaction it writes out, in its engine's window, and goes on; a read
binds the value returned to its name. -/
def Obligations.ScriptLineIssuesItsTransaction : Prop :=
  ∀ (s : State) (rest : List Turn) (line : ScriptLine) (e : Engine),
    s.schedule = .script :: rest → s.script.lines[s.script.next]? = some line →
    s.engines[s.script.engine]? = some e →
    (∀ off d, line.stmt = .write off d →
      ∃ t, step { s with schedule := .host s.script.engine ⟨off, .write d⟩ :: rest } = .next t ∧
        step s = .next { t with script := { s.script with next := s.script.next + 1 } }) ∧
    (∀ size off name, line.stmt = .read size off name →
      ∃ t sc, step { s with schedule := .host s.script.engine ⟨off, .read size⟩ :: rest } = .next t ∧
        step s = .next { t with script := sc } ∧ sc.next = s.script.next + 1 ∧ sc.lines = s.script.lines ∧
        (∀ v, t.response = some (.data v) → sc.lookup name = some v) ∧
        ∀ other, other ≠ name → sc.lookup other = s.script.lookup other)

/-- 30_encoding R84: a branch tests `(name & mask) = value`, goes to the line its label names or to the next line, and
issues no transaction. Where a label names two lines the first counts, which is the model's choice (log entry 11). -/
def Obligations.ScriptBranchTestsItsMask : Prop :=
  ∀ (s : State) (rest : List Turn) (line : ScriptLine) (name label k : Nat) (mask value v : Word),
    s.schedule = .script :: rest → s.script.lines[s.script.next]? = some line → s.script.lookup name = some v →
    s.script.lines.findIdx? (fun l => l.label == some label) = some k →
    (line.stmt = .beq name mask value label →
      step s = .next { without s rest with script := { s.script with
        next := if v &&& mask = value then k else s.script.next + 1 } }) ∧
    (line.stmt = .bne name mask value label →
      step s = .next { without s rest with script := { s.script with
        next := if v &&& mask = value then s.script.next + 1 else k } })

/-- 30_encoding R85: the five pseudo-instructions, run as the script lines they expand to. In an idle engine `CMD i`
issues the word of i, `SETWIN size, b0, b1` leaves exactly these in LEN_WIN_IN, and `LOADI i, b0 ... bm` stores its bytes
in IBUF cells i to i+m and changes no other cell. `ACK` clears DONE and REJECTED, busy or idle. `WAITDONE` reads STATUS
and goes back to its own line while DONE = 0, and else past its branch. -/
def Obligations.PseudoInstructionsDoWhatTheySay : Prop :=
  (∀ (s : State) (rest : List Turn) (line : ScriptLine) (e : Engine),
    s.schedule = .script :: rest → s.script.lines[s.script.next]? = some line →
    s.engines[s.script.engine]? = some e →
    (∀ i, e.status.busy = false → (Pseudo.cmd i).expand = [line] →
      ∃ t e', step s = .next t ∧ t.engines[s.script.engine]? = some e' ∧ e'.status.busy = true ∧
        decode e'.cmd = .ok i ∧ e'.inputs = e.inputs ∧ e'.ibuf = e.ibuf) ∧
    (∀ size b0 b1, e.status.busy = false → (Pseudo.setWin size b0 b1).expand = [line] →
      ∃ t e', step s = .next t ∧ t.engines[s.script.engine]? = some e' ∧
        e' = { e with inputs := { e.inputs with winB0 := b0, winB1 := b1, winSize := size } }) ∧
    (Pseudo.ack.expand = [line] →
      ∃ t e', step s = .next t ∧ t.engines[s.script.engine]? = some e' ∧
        e' = { e with status := { e.status with done := false, rejected := false } })) ∧
  (∀ (s : State) (rest : List Turn) (e : Engine) (name label : Nat) (read branch : ScriptLine),
    s.schedule = .script :: .script :: rest → s.engines[s.script.engine]? = some e →
    (Pseudo.waitDone name label).expand = [read, branch] →
    s.script.lines[s.script.next]? = some read → s.script.lines[s.script.next + 1]? = some branch →
    s.script.lines.findIdx? (fun l => l.label == some label) = some s.script.next →
    ∃ t, afterTurns s t 2 ∧ t.engines = s.engines ∧ t.faults = s.faults ∧ t.schedule = rest ∧
      t.script.lines = s.script.lines ∧ t.script.lookup name = some e.status.word ∧
      t.script.next = if e.status.done then s.script.next + 2 else s.script.next) ∧
  (∀ (s : State) (rest : List Turn) (e : Engine) (i : Nat) (bytes : List Byte),
    s.schedule = List.replicate bytes.length .script ++ rest → s.engines[s.script.engine]? = some e →
    e.status.busy = false → i + bytes.length ≤ 131072 →
    (∀ j, j < bytes.length → s.script.lines[s.script.next + j]? = (Pseudo.loadI i bytes).expand[j]?) →
    ∃ t e', afterTurns s t bytes.length ∧ t.engines = s.engines.set s.script.engine e' ∧
      t.faults = s.faults ∧ t.schedule = rest ∧ t.script = { s.script with next := s.script.next + bytes.length } ∧
      e' = { e with ibuf := e'.ibuf } ∧
      (∀ j, j < bytes.length → Memory.read e'.ibuf (i + j) = bytes[j]?) ∧
      ∀ a, a < i ∨ i + bytes.length ≤ a → Memory.read e'.ibuf a = Memory.read e.ibuf a)

/-! ## Reset and the whole machine -/

/-- 70_reset_and_hazards R141, R142: a reset turn gives every engine, busy or not, its reset values and no value in
any buffer cell; the model fault set is not changed. The registers then read as the table of 10_state R14 says, and
the IRQ line is low. -/
def Obligations.ResetStepGivesResetValues : Prop :=
  ∀ (s : State) (rest : List Turn), s.schedule = .reset :: rest →
    ∃ t, step s = .next t ∧ t.faults = s.faults ∧ t.engines.length = s.engines.length ∧
      ∀ e ∈ t.engines, e.irq = false ∧ e.readReg .id = 0x48444643#32 ∧
        (∀ r, r ≠ Reg.id → e.readReg r = 0#32) ∧ e.status.busy = false ∧ e.enabled = false ∧
        (∀ a, Memory.read e.ibuf a = none ∧ Memory.read e.obuf a = none)

/-- 60_exceptions R137, 10_state R14, R35, R36, R39, R40: right after reset there are NUM_ENGINES engines, at least
one, each idle, with the register values of R14, no value in a buffer cell and the IRQ line low, in a legal state, and
no model fault. That nothing is scheduled is the model's choice (log entries 1, 17). -/
def Obligations.ResetIsLegal : Prop :=
  (State.reset.engines.length = Config.numEngines ∧ 1 ≤ Config.numEngines) ∧
  (∀ e ∈ State.reset.engines, e.status.busy = false ∧ e.irq = false ∧ e.readReg .id = 0x48444643#32 ∧
    (∀ r, r ≠ Reg.id → e.readReg r = 0#32) ∧ ∀ a, Memory.read e.ibuf a = none ∧ Memory.read e.obuf a = none) ∧
  State.reset.Inv ∧ State.reset.meaningful = true ∧ State.reset.schedule = []

/-- Every step from a legal state gives a legal state (10_state R17, R24 to R29, R35, R36; 20_memory R57; 40_control
R91; 00_scope R6): the legal values of STATUS, the bounds of the result registers, the cells of OBUF, the canonical
form of the buffers and the number of engines. -/
def Obligations.StepKeepsTheStateLegal : Prop :=
  ∀ s t : State, s.Inv → step s = .next t → t.Inv

/-- 10_state R40: no step clears a model fault, reset included. -/
def Obligations.ModelFaultsAreNeverCleared : Prop :=
  ∀ s t : State, step s = .next t → FaultSet.subset s.faults t.faults

/-- 60_exceptions R134, log entry 5: a model fault is recorded and the machine goes on; no step stops with a fault. A
turn that names an engine the platform has, and is no script line and no platform address, is never refused. -/
def Obligations.TurnsOfExistingEnginesAnswerANextState : Prop :=
  (∀ (s : State) (r : Fault), step s ≠ .fault r) ∧
  ∀ (s : State) (rest : List Turn) (n : Nat) (t : Transaction), n < s.engines.length →
    s.schedule = .perform n :: rest ∨ s.schedule = .host n t :: rest ∨ s.schedule = .reset :: rest ∨
      s.schedule = [] →
    ∃ s', step s = .next s'

/-- 20_memory R62, 10_state R13: a turn of engine n, or a host access in its window, changes no other engine. -/
def Obligations.EnginesShareNoState : Prop :=
  ∀ (s s' : State) (rest : List Turn) (n m : Nat) (t : Transaction), m ≠ n →
    s.schedule = .perform n :: rest ∨ s.schedule = .host n t :: rest → step s = .next s' →
    s'.engines[m]? = s.engines[m]?

/-- 20_memory R62: turns of two different engines give the same state in either order, but for which engine moved last
and which free values were drawn. The premises say that the commands read no free value. -/
def Obligations.PerformTurnsOfTwoEnginesCommute : Prop :=
  ∀ (s a a' b b' : State) (n m : Nat) (rest : List Turn) (en em : Engine), m ≠ n →
    s.engines[n]? = some en → s.engines[m]? = some em → en.hazard = Hazard.clear → em.hazard = Hazard.clear →
    step { s with schedule := .perform n :: .perform m :: rest } = .next a → step a = .next a' →
    step { s with schedule := .perform m :: .perform n :: rest } = .next b → step b = .next b' →
    a'.engines = b'.engines ∧ a'.faults = b'.faults ∧ a'.response = b'.response ∧ a'.draws = b'.draws ∧
      a'.schedule = rest ∧ b'.schedule = rest
end

