-- ==== Sys2Proof/Laws/State.lean ====
section
/-! SUPPORT. What each update of the state, of an engine and of STATUS leaves in each field. -/

namespace Sys2Proof.Machine

/-! ### State.setEngine -/

@[simp] theorem State.setEngine_engines (s : State) (n : Nat) (e : Engine) : (s.setEngine n e).engines = s.engines.set n e := rfl
@[simp] theorem State.setEngine_faults (s : State) (n : Nat) (e : Engine) : (s.setEngine n e).faults = s.faults := rfl
@[simp] theorem State.setEngine_schedule (s : State) (n : Nat) (e : Engine) : (s.setEngine n e).schedule = s.schedule := rfl
@[simp] theorem State.setEngine_active (s : State) (n : Nat) (e : Engine) : (s.setEngine n e).active = s.active := rfl
@[simp] theorem State.setEngine_response (s : State) (n : Nat) (e : Engine) : (s.setEngine n e).response = s.response := rfl
@[simp] theorem State.setEngine_script (s : State) (n : Nat) (e : Engine) : (s.setEngine n e).script = s.script := rfl
@[simp] theorem State.setEngine_draws (s : State) (n : Nat) (e : Engine) : (s.setEngine n e).draws = s.draws := rfl

/-! ### State.record -/

@[simp] theorem State.record_engines (s : State) (f : Fault) : (s.record f).engines = s.engines := rfl
@[simp] theorem State.record_faults (s : State) (f : Fault) : (s.record f).faults = s.faults.record f := rfl
@[simp] theorem State.record_schedule (s : State) (f : Fault) : (s.record f).schedule = s.schedule := rfl
@[simp] theorem State.record_active (s : State) (f : Fault) : (s.record f).active = s.active := rfl
@[simp] theorem State.record_response (s : State) (f : Fault) : (s.record f).response = s.response := rfl
@[simp] theorem State.record_script (s : State) (f : Fault) : (s.record f).script = s.script := rfl
@[simp] theorem State.record_draws (s : State) (f : Fault) : (s.record f).draws = s.draws := rfl

/-! ### State.respond -/

@[simp] theorem State.respond_engines (s : State) (r : Response) : (s.respond r).engines = s.engines := rfl
@[simp] theorem State.respond_faults (s : State) (r : Response) : (s.respond r).faults = s.faults := rfl
@[simp] theorem State.respond_schedule (s : State) (r : Response) : (s.respond r).schedule = s.schedule := rfl
@[simp] theorem State.respond_active (s : State) (r : Response) : (s.respond r).active = s.active := rfl
@[simp] theorem State.respond_response (s : State) (r : Response) : (s.respond r).response = some r := rfl
@[simp] theorem State.respond_script (s : State) (r : Response) : (s.respond r).script = s.script := rfl
@[simp] theorem State.respond_draws (s : State) (r : Response) : (s.respond r).draws = s.draws := rfl

/-! ### State.drawn -/

@[simp] theorem State.drawn_engines (s : State) : (s.drawn).engines = s.engines := rfl
@[simp] theorem State.drawn_faults (s : State) : (s.drawn).faults = s.faults := rfl
@[simp] theorem State.drawn_schedule (s : State) : (s.drawn).schedule = s.schedule := rfl
@[simp] theorem State.drawn_active (s : State) : (s.drawn).active = s.active := rfl
@[simp] theorem State.drawn_response (s : State) : (s.drawn).response = s.response := rfl
@[simp] theorem State.drawn_script (s : State) : (s.drawn).script = s.script := rfl
@[simp] theorem State.drawn_draws (s : State) : (s.drawn).draws = s.draws + 1 := rfl

/-! ### State.resetStep -/

@[simp] theorem State.resetStep_engines (s : State) : (s.resetStep).engines = s.engines.map (fun _ => Engine.reset) := rfl
@[simp] theorem State.resetStep_faults (s : State) : (s.resetStep).faults = s.faults := rfl
@[simp] theorem State.resetStep_schedule (s : State) : (s.resetStep).schedule = s.schedule := rfl
@[simp] theorem State.resetStep_active (s : State) : (s.resetStep).active = s.active := rfl
@[simp] theorem State.resetStep_response (s : State) : (s.resetStep).response = s.response := rfl
@[simp] theorem State.resetStep_script (s : State) : (s.resetStep).script = s.script := rfl
@[simp] theorem State.resetStep_draws (s : State) : (s.resetStep).draws = s.draws := rfl

/-! ### State.recordIf -/

@[simp] theorem State.recordIf_engines (s : State) (c : Bool) (f : Fault) : (s.recordIf c f).engines = s.engines := by
  cases c <;> rfl
theorem State.recordIf_faults (s : State) (c : Bool) (f : Fault) :
    (s.recordIf c f).faults = if c then s.faults.record f else s.faults := by cases c <;> rfl
@[simp] theorem State.recordIf_schedule (s : State) (c : Bool) (f : Fault) : (s.recordIf c f).schedule = s.schedule := by
  cases c <;> rfl
@[simp] theorem State.recordIf_active (s : State) (c : Bool) (f : Fault) : (s.recordIf c f).active = s.active := by
  cases c <;> rfl
@[simp] theorem State.recordIf_response (s : State) (c : Bool) (f : Fault) : (s.recordIf c f).response = s.response := by
  cases c <;> rfl
@[simp] theorem State.recordIf_script (s : State) (c : Bool) (f : Fault) : (s.recordIf c f).script = s.script := by
  cases c <;> rfl
@[simp] theorem State.recordIf_draws (s : State) (c : Bool) (f : Fault) : (s.recordIf c f).draws = s.draws := by
  cases c <;> rfl
@[simp] theorem State.recordIf_false (s : State) (f : Fault) : s.recordIf false f = s := rfl
@[simp] theorem State.recordIf_true (s : State) (f : Fault) : s.recordIf true f = s.record f := rfl

/-! ### Engine.accept -/

@[simp] theorem Engine.accept_cmd (e : Engine) (w : Word) : (e.accept w).cmd = w := rfl
@[simp] theorem Engine.accept_status (e : Engine) (w : Word) : (e.accept w).status = e.status.accepted := rfl
@[simp] theorem Engine.accept_doneIe (e : Engine) (w : Word) : (e.accept w).doneIe = e.doneIe := rfl
@[simp] theorem Engine.accept_inputs (e : Engine) (w : Word) : (e.accept w).inputs = e.inputs := rfl
@[simp] theorem Engine.accept_results (e : Engine) (w : Word) : (e.accept w).results = e.results := rfl
@[simp] theorem Engine.accept_ibuf (e : Engine) (w : Word) : (e.accept w).ibuf = e.ibuf := rfl
@[simp] theorem Engine.accept_obuf (e : Engine) (w : Word) : (e.accept w).obuf = e.obuf := rfl
@[simp] theorem Engine.accept_stuck (e : Engine) (w : Word) : (e.accept w).stuck = false := rfl
@[simp] theorem Engine.accept_hazard (e : Engine) (w : Word) : (e.accept w).hazard = Hazard.clear := rfl

/-! ### Engine.reject -/

@[simp] theorem Engine.reject_cmd (e : Engine) : (e.reject).cmd = e.cmd := rfl
@[simp] theorem Engine.reject_status (e : Engine) : (e.reject).status = { e.status with rejected := true } := rfl
@[simp] theorem Engine.reject_doneIe (e : Engine) : (e.reject).doneIe = e.doneIe := rfl
@[simp] theorem Engine.reject_inputs (e : Engine) : (e.reject).inputs = e.inputs := rfl
@[simp] theorem Engine.reject_results (e : Engine) : (e.reject).results = e.results := rfl
@[simp] theorem Engine.reject_ibuf (e : Engine) : (e.reject).ibuf = e.ibuf := rfl
@[simp] theorem Engine.reject_obuf (e : Engine) : (e.reject).obuf = e.obuf := rfl
@[simp] theorem Engine.reject_stuck (e : Engine) : (e.reject).stuck = e.stuck := rfl
@[simp] theorem Engine.reject_hazard (e : Engine) : (e.reject).hazard = e.hazard := rfl

/-! ### Engine.completeSuccess -/

@[simp] theorem Engine.completeSuccess_cmd (e : Engine) (r : ResultRegs) (out : List Byte) :
    (e.completeSuccess r out).cmd = e.cmd := rfl
@[simp] theorem Engine.completeSuccess_status (e : Engine) (r : ResultRegs) (out : List Byte) :
    (e.completeSuccess r out).status = e.status.succeeded := rfl
@[simp] theorem Engine.completeSuccess_doneIe (e : Engine) (r : ResultRegs) (out : List Byte) :
    (e.completeSuccess r out).doneIe = e.doneIe := rfl
@[simp] theorem Engine.completeSuccess_inputs (e : Engine) (r : ResultRegs) (out : List Byte) :
    (e.completeSuccess r out).inputs = e.inputs := rfl
@[simp] theorem Engine.completeSuccess_results (e : Engine) (r : ResultRegs) (out : List Byte) :
    (e.completeSuccess r out).results = r := rfl
@[simp] theorem Engine.completeSuccess_ibuf (e : Engine) (r : ResultRegs) (out : List Byte) :
    (e.completeSuccess r out).ibuf = e.ibuf := rfl
@[simp] theorem Engine.completeSuccess_obuf (e : Engine) (r : ResultRegs) (out : List Byte) :
    (e.completeSuccess r out).obuf = Memory.ofBytes 0 out := rfl
@[simp] theorem Engine.completeSuccess_stuck (e : Engine) (r : ResultRegs) (out : List Byte) :
    (e.completeSuccess r out).stuck = e.stuck := rfl
@[simp] theorem Engine.completeSuccess_hazard (e : Engine) (r : ResultRegs) (out : List Byte) :
    (e.completeSuccess r out).hazard = Hazard.clear := rfl

/-! ### Engine.completeError -/

@[simp] theorem Engine.completeError_cmd (e : Engine) (c : ErrorCause) (crc : Word) :
    (e.completeError c crc).cmd = e.cmd := rfl
@[simp] theorem Engine.completeError_status (e : Engine) (c : ErrorCause) (crc : Word) :
    (e.completeError c crc).status = e.status.failed c := rfl
@[simp] theorem Engine.completeError_doneIe (e : Engine) (c : ErrorCause) (crc : Word) :
    (e.completeError c crc).doneIe = e.doneIe := rfl
@[simp] theorem Engine.completeError_inputs (e : Engine) (c : ErrorCause) (crc : Word) :
    (e.completeError c crc).inputs = e.inputs := rfl
@[simp] theorem Engine.completeError_results (e : Engine) (c : ErrorCause) (crc : Word) :
    (e.completeError c crc).results = { ResultRegs.zero with crcOut := crc } := rfl
@[simp] theorem Engine.completeError_ibuf (e : Engine) (c : ErrorCause) (crc : Word) :
    (e.completeError c crc).ibuf = e.ibuf := rfl
@[simp] theorem Engine.completeError_obuf (e : Engine) (c : ErrorCause) (crc : Word) :
    (e.completeError c crc).obuf = [] := rfl
@[simp] theorem Engine.completeError_stuck (e : Engine) (c : ErrorCause) (crc : Word) :
    (e.completeError c crc).stuck = e.stuck := rfl
@[simp] theorem Engine.completeError_hazard (e : Engine) (c : ErrorCause) (crc : Word) :
    (e.completeError c crc).hazard = Hazard.clear := rfl

/-! ### Engine.writeIbuf -/

@[simp] theorem Engine.writeIbuf_cmd (e : Engine) (a : Nat) (bs : List Byte) : (e.writeIbuf a bs).cmd = e.cmd := rfl
@[simp] theorem Engine.writeIbuf_status (e : Engine) (a : Nat) (bs : List Byte) :
    (e.writeIbuf a bs).status = e.status := rfl
@[simp] theorem Engine.writeIbuf_doneIe (e : Engine) (a : Nat) (bs : List Byte) :
    (e.writeIbuf a bs).doneIe = e.doneIe := rfl
@[simp] theorem Engine.writeIbuf_inputs (e : Engine) (a : Nat) (bs : List Byte) :
    (e.writeIbuf a bs).inputs = e.inputs := rfl
@[simp] theorem Engine.writeIbuf_results (e : Engine) (a : Nat) (bs : List Byte) :
    (e.writeIbuf a bs).results = e.results := rfl
@[simp] theorem Engine.writeIbuf_ibuf (e : Engine) (a : Nat) (bs : List Byte) :
    (e.writeIbuf a bs).ibuf = Memory.writeBytes e.ibuf a bs := rfl
@[simp] theorem Engine.writeIbuf_obuf (e : Engine) (a : Nat) (bs : List Byte) :
    (e.writeIbuf a bs).obuf = e.obuf := rfl
@[simp] theorem Engine.writeIbuf_stuck (e : Engine) (a : Nat) (bs : List Byte) :
    (e.writeIbuf a bs).stuck = e.stuck := rfl

/-! ### Status.accepted -/

@[simp] theorem Status.accepted_busy (st : Status) : (st.accepted).busy = true := rfl
@[simp] theorem Status.accepted_done (st : Status) : (st.accepted).done = false := rfl
@[simp] theorem Status.accepted_rejected (st : Status) : (st.accepted).rejected = st.rejected := rfl
@[simp] theorem Status.accepted_err (st : Status) : (st.accepted).err = none := rfl
@[simp] theorem Status.accepted_cause (st : Status) : (st.accepted).cause = none := rfl

/-! ### Status.succeeded -/

@[simp] theorem Status.succeeded_busy (st : Status) : (st.succeeded).busy = false := rfl
@[simp] theorem Status.succeeded_done (st : Status) : (st.succeeded).done = true := rfl
@[simp] theorem Status.succeeded_rejected (st : Status) : (st.succeeded).rejected = st.rejected := rfl
@[simp] theorem Status.succeeded_err (st : Status) : (st.succeeded).err = none := rfl
@[simp] theorem Status.succeeded_cause (st : Status) : (st.succeeded).cause = none := rfl

/-! ### Status.failed -/

@[simp] theorem Status.failed_busy (st : Status) (c : ErrorCause) : (st.failed c).busy = false := rfl
@[simp] theorem Status.failed_done (st : Status) (c : ErrorCause) : (st.failed c).done = true := rfl
@[simp] theorem Status.failed_rejected (st : Status) (c : ErrorCause) : (st.failed c).rejected = st.rejected := rfl
@[simp] theorem Status.failed_err (st : Status) (c : ErrorCause) : (st.failed c).err = some c.kind := rfl
@[simp] theorem Status.failed_cause (st : Status) (c : ErrorCause) : (st.failed c).cause = some c := rfl

/-! ### Status.acknowledge -/

@[simp] theorem Status.acknowledge_busy (st : Status) (w : Word) : (st.acknowledge w).busy = st.busy := rfl
@[simp] theorem Status.acknowledge_done (st : Status) (w : Word) : (st.acknowledge w).done = (st.done && !w.getLsbD 1) := rfl
@[simp] theorem Status.acknowledge_rejected (st : Status) (w : Word) : (st.acknowledge w).rejected = (st.rejected && !w.getLsbD 2) := rfl
@[simp] theorem Status.acknowledge_err (st : Status) (w : Word) : (st.acknowledge w).err = st.err := rfl
@[simp] theorem Status.acknowledge_cause (st : Status) (w : Word) : (st.acknowledge w).cause = st.cause := rfl

/-! ### Engine.conclude -/

@[simp] theorem Engine.conclude_success (e : Engine) (r : ResultRegs) (out : List Byte) :
    e.conclude (.success r out) = e.completeSuccess r out := rfl
@[simp] theorem Engine.conclude_raise (e : Engine) (c : ErrorCause) (crc : Word) :
    e.conclude (.raise c crc) = e.completeError c crc := rfl
@[simp] theorem Engine.conclude_uninitRead (e : Engine) :
    e.conclude .uninitRead = { e with stuck := true } := rfl

/-! ### Reset -/

theorem Memory.wf_nil : Memory.wf [] := List.Pairwise.nil
@[simp] theorem State.reset_active : State.reset.active = 0 := rfl
@[simp] theorem State.reset_schedule : State.reset.schedule = [] := rfl
@[simp] theorem State.reset_faults : State.reset.faults = ⟨false, false⟩ := rfl

end Sys2Proof.Machine
end

