-- ==== Sys2Proof/Laws/Memory.lean ====
section
/-! SUPPORT. The laws of buffer cells: every operation keeps the canonical form, and reading a cell says what was
stored there (20_memory R46, R54, R55, R57). -/

namespace Sys2Proof.Machine

/-! ## Keys and the canonical form -/

theorem Memory.mem_write {m : Memory} {a : Nat} {v : Byte} {c : Host.Cell} (h : c ∈ Memory.write m a v) :
    c = (a, v) ∨ c ∈ m := by
  induction m with
  | nil => simpa [Memory.write] using h
  | cons x rest ih =>
    obtain ⟨b, w⟩ := x
    simp only [Memory.write] at h
    split_ifs at h
    · simpa using h
    · rcases List.mem_cons.1 h with h | h
      · exact .inl h
      · exact .inr (List.mem_cons_of_mem _ h)
    · rcases List.mem_cons.1 h with h | h
      · exact .inr (by simp [h])
      · exact (ih h).imp id (List.mem_cons_of_mem _)

theorem Memory.write_wf {m : Memory} (h : Memory.wf m) (a : Nat) (v : Byte) : Memory.wf (Memory.write m a v) := by
  induction m with
  | nil => simp [Memory.write, Memory.wf]
  | cons x rest ih =>
    obtain ⟨b, w⟩ := x
    obtain ⟨hx, hr⟩ := List.pairwise_cons.1 h
    simp only [Memory.write]
    split_ifs with h1 h2
    · refine List.pairwise_cons.2 ⟨?_, h⟩
      intro c hc
      rcases List.mem_cons.1 hc with rfl | hc
      · exact h1
      · exact Nat.lt_trans h1 (hx c hc)
    · exact List.pairwise_cons.2 ⟨fun c hc => h2 ▸ hx c hc, hr⟩
    · refine List.pairwise_cons.2 ⟨?_, ih hr⟩
      intro c hc
      rcases Memory.mem_write hc with rfl | hc
      · simp only; omega
      · exact hx c hc

theorem Memory.writeBytes_wf {m : Memory} (h : Memory.wf m) (a : Nat) (vs : List Byte) :
    Memory.wf (Memory.writeBytes m a vs) := by
  induction vs generalizing m a with
  | nil => exact h
  | cons v rest ih => exact ih (Memory.write_wf h a v) (a + 1)

theorem Memory.mem_writeBytes {m : Memory} {a : Nat} {vs : List Byte} {c : Host.Cell}
    (h : c ∈ Memory.writeBytes m a vs) : c ∈ m ∨ (a ≤ c.1 ∧ c.1 < a + vs.length) := by
  induction vs generalizing m a with
  | nil => exact .inl h
  | cons v rest ih =>
    rcases ih h with h | h
    · rcases Memory.mem_write h with rfl | h
      · right; simp
      · exact .inl h
    · right; simp only [List.length_cons]; omega

@[simp] theorem Memory.ofBytes_keys (a : Nat) (vs : List Byte) :
    (Memory.ofBytes a vs).map Prod.fst = List.range' a vs.length := by
  induction vs generalizing a with
  | nil => rfl
  | cons v rest ih => simp [Memory.ofBytes, ih, List.range'_succ]

theorem Memory.wf_iff_keys (m : Memory) : Memory.wf m ↔ (m.map Prod.fst).Pairwise (· < ·) := by
  simp [Memory.wf, List.pairwise_map]

theorem Memory.ofBytes_wf (a : Nat) (vs : List Byte) : Memory.wf (Memory.ofBytes a vs) := by
  rw [Memory.wf_iff_keys, Memory.ofBytes_keys]
  exact List.pairwise_lt_range'

/-- A buffer seen through free values keeps its cells. -/
theorem Engine.seenIbuf_keys (e : Engine) (d : Nat) : (e.seenIbuf d).map Prod.fst = e.ibuf.map Prod.fst := by
  simp [Engine.seenIbuf, Function.comp_def]

/-! ## Reading a cell -/

theorem Memory.read_eq_none_of_lt {m : Memory} {a : Nat} (h : ∀ c ∈ m, a < c.1) : Memory.read m a = none := by
  induction m with
  | nil => rfl
  | cons x rest ih =>
    have := h x (by simp)
    simp only [Memory.read]
    rw [if_neg (by omega), ih fun c hc => h c (List.mem_cons_of_mem _ hc)]

theorem Memory.read_write_same (m : Memory) (a : Nat) (v : Byte) : Memory.read (Memory.write m a v) a = some v := by
  induction m with
  | nil => simp [Memory.write, Memory.read]
  | cons x rest ih =>
    obtain ⟨b, w⟩ := x
    simp only [Memory.write]
    split_ifs with h1 h2
    · simp [Memory.read]
    · simp [Memory.read]
    · simp [Memory.read, ih, Ne.symm h2]

theorem Memory.read_write_other (m : Memory) {a a' : Nat} (v : Byte) (h : a' ≠ a) :
    Memory.read (Memory.write m a v) a' = Memory.read m a' := by
  induction m with
  | nil => simp [Memory.write, Memory.read, Ne.symm h]
  | cons x rest ih =>
    obtain ⟨b, w⟩ := x
    simp only [Memory.write]
    split_ifs with h1 h2
    · simp [Memory.read, Ne.symm h]
    · subst h2; simp [Memory.read, Ne.symm h]
    · simp [Memory.read, ih]

theorem Memory.read_writeBytes_other (m : Memory) (a : Nat) (vs : List Byte) {a' : Nat}
    (h : a' < a ∨ a + vs.length ≤ a') : Memory.read (Memory.writeBytes m a vs) a' = Memory.read m a' := by
  induction vs generalizing m a with
  | nil => rfl
  | cons v rest ih =>
    simp only [List.length_cons] at h
    rw [Memory.writeBytes, ih _ _ (by omega), Memory.read_write_other _ _ (by omega)]

theorem Memory.read_writeBytes (m : Memory) (a : Nat) (vs : List Byte) {i : Nat} (h : i < vs.length) :
    Memory.read (Memory.writeBytes m a vs) (a + i) = vs[i]? := by
  induction vs generalizing m a i with
  | nil => simp at h
  | cons v rest ih =>
    rw [Memory.writeBytes]
    cases i with
    | zero => rw [Memory.read_writeBytes_other _ _ _ (by omega)]; simp [Memory.read_write_same]
    | succ i =>
      have := ih (Memory.write m a v) (a + 1) (i := i) (by simpa using h)
      rw [show a + (i + 1) = a + 1 + i by omega, this]; simp

theorem Memory.read_ofBytes (a : Nat) (vs : List Byte) (i : Nat) :
    Memory.read (Memory.ofBytes a vs) (a + i) = vs[i]? := by
  induction vs generalizing a i with
  | nil => rfl
  | cons v rest ih =>
    cases i with
    | zero => simp [Memory.ofBytes, Memory.read]
    | succ i =>
      simp only [Memory.ofBytes, Memory.read]
      rw [if_neg (by omega), show a + (i + 1) = a + 1 + i by omega, ih]; simp

/-- What a read of n cells answers: all of them, exactly when every one holds a value. -/
theorem Memory.readBytes_eq_some (m : Memory) (a n : Nat) (vs : List Byte) :
    Memory.readBytes m a n = some vs ↔ vs.length = n ∧ ∀ i, i < n → Memory.read m (a + i) = vs[i]? := by
  induction n generalizing a vs with
  | zero =>
    simp only [Memory.readBytes, Option.some.injEq, Nat.not_lt_zero, false_imp_iff, implies_true, and_true,
      List.length_eq_zero_iff]
    exact eq_comm
  | succ n ih =>
    constructor
    · intro h
      simp only [Memory.readBytes] at h
      split at h
      · rename_i v vs' hv hvs
        obtain ⟨hl, hr⟩ := (ih _ _).1 hvs
        cases h
        refine ⟨by simp [hl], ?_⟩
        intro i hi
        cases i with
        | zero => simpa using hv
        | succ i =>
          rw [show a + (i + 1) = a + 1 + i by omega, hr i (by omega)]; simp
      · cases h
    · rintro ⟨hl, hr⟩
      match vs, hl with
      | v :: rest, hl =>
        have h0 : Memory.read m a = some v := by simpa using hr 0 (by omega)
        have h1 : Memory.readBytes m (a + 1) n = some rest := by
          refine (ih _ _).2 ⟨by simpa using hl, fun i hi => ?_⟩
          have := hr (i + 1) (by omega)
          rw [show a + (i + 1) = a + 1 + i by omega] at this
          simpa using this
        simp [Memory.readBytes, h0, h1]

/-- A read of n cells answers nothing exactly when one of them holds no value. -/
theorem Memory.readBytes_eq_none (m : Memory) (a n : Nat) :
    Memory.readBytes m a n = none ↔ ∃ i, i < n ∧ Memory.read m (a + i) = none := by
  induction n generalizing a with
  | zero => simp [Memory.readBytes]
  | succ n ih =>
    simp only [Memory.readBytes]
    constructor
    · intro h
      split at h
      · cases h
      · rename_i hno
        by_cases h0 : Memory.read m a = none
        · exact ⟨0, by omega, h0⟩
        · obtain ⟨v, hv⟩ := Option.ne_none_iff_exists'.1 h0
          have h1 : Memory.readBytes m (a + 1) n = none := by
            by_contra hc
            obtain ⟨vs, hvs⟩ := Option.ne_none_iff_exists'.1 hc
            exact hno v vs hv hvs
          obtain ⟨i, hi, hr⟩ := (ih _).1 h1
          exact ⟨i + 1, by omega, by rwa [show a + (i + 1) = a + 1 + i by omega]⟩
    · rintro ⟨i, hi, hr⟩
      split
      · rename_i v vs hv hvs
        cases i with
        | zero => rw [Nat.add_zero, hv] at hr; cases hr
        | succ i =>
          have : Memory.readBytes m (a + 1) n = none :=
            (ih _).2 ⟨i, by omega, by rwa [show a + 1 + i = a + (i + 1) by omega]⟩
          rw [hvs] at this; cases this
      · rfl

end Sys2Proof.Machine
end

