-- ==== Sys2Proof/Laws/Perform.lean ====
section
/-! SUPPORT. The perform step: what `performCommand` answers, that every command is one, and that what a command's
rule gives leaves a legal engine. -/

namespace Sys2Proof.Machine

/-- The rule of each command: the function `Exec` of 40_control R89. -/
def ruleOf : Instr → Operands → CommandResult
  | .nop => nopResult
  | .frameEncode => frameEncodeResult
  | .frameDecode => frameDecodeResult
  | .lenEncode => lenEncodeResult
  | .lenDecode => lenDecodeResult
  | .crc32Gen => crc32GenResult
  | .crc32Check => crc32CheckResult

theorem exec_eq_performCommand (i : Instr) (s : State) : exec i s = s.performCommand (ruleOf i) := by
  cases i <;> rfl

/-- The state after a perform step of the active engine e whose rule gave `result`. -/
def State.concluded (s : State) (e : Engine) (result : CommandResult) : State :=
  ((s.setEngine s.active (e.conclude result)).recordIf result.isUninit .uninitRead).drawn

theorem performCommand_eq {s : State} {e : Engine} (h : s.engines[s.active]? = some e)
    (rule : Operands → CommandResult) :
    s.performCommand rule = .next (s.concluded e (rule (e.operands s.draws))) := by
  simp only [State.performCommand, h]; rfl

theorem exec_eq {s : State} {e : Engine} (h : s.engines[s.active]? = some e) (i : Instr) :
    exec i s = .next (s.concluded e (ruleOf i (e.operands s.draws))) := by
  rw [exec_eq_performCommand, performCommand_eq h]

/-- A command answers a next state only of an engine that exists, and this is that state. -/
theorem exec_next {i : Instr} {s t : State} (h : exec i s = .next t) :
    ∃ e, s.engines[s.active]? = some e ∧ t = s.concluded e (ruleOf i (e.operands s.draws)) := by
  cases he : s.engines[s.active]? with
  | none => simp [exec_eq_performCommand, State.performCommand, he] at h
  | some e =>
    refine ⟨e, rfl, ?_⟩
    rw [exec_eq he] at h
    exact (Host.Outcome.next.inj h).symm

@[simp] theorem State.concluded_engines (s : State) (e : Engine) (r : CommandResult) :
    (s.concluded e r).engines = s.engines.set s.active (e.conclude r) := by simp [State.concluded]
@[simp] theorem State.concluded_schedule (s : State) (e : Engine) (r : CommandResult) :
    (s.concluded e r).schedule = s.schedule := by simp [State.concluded]
@[simp] theorem State.concluded_active (s : State) (e : Engine) (r : CommandResult) :
    (s.concluded e r).active = s.active := by simp [State.concluded]
@[simp] theorem State.concluded_response (s : State) (e : Engine) (r : CommandResult) :
    (s.concluded e r).response = s.response := by simp [State.concluded]
@[simp] theorem State.concluded_script (s : State) (e : Engine) (r : CommandResult) :
    (s.concluded e r).script = s.script := by simp [State.concluded]
@[simp] theorem State.concluded_draws (s : State) (e : Engine) (r : CommandResult) :
    (s.concluded e r).draws = s.draws + 1 := by simp [State.concluded]
@[simp] theorem State.concluded_faults (s : State) (e : Engine) (r : CommandResult) :
    (s.concluded e r).faults = if r.isUninit then s.faults.record .uninitRead else s.faults := by
  simp [State.concluded, State.recordIf_faults]

theorem State.concluded_active_engine {s : State} {e : Engine} (h : s.engines[s.active]? = some e)
    (r : CommandResult) : (s.concluded e r).engines[s.active]? = some (e.conclude r) := by
  obtain ⟨hlt, -⟩ := List.getElem?_eq_some_iff.1 h
  simp [hlt]

/-- What a command's rule may give: the bounds of 10_state R24 to R29 and an output as long as OUT_LEN says. -/
def CommandResult.legal : CommandResult → Prop
  | .success r out =>
    r.outLen.toNat = out.length ∧ out.length ≤ 98302 ∧ r.blockCount.toNat ≤ 32767 ∧ r.lenOut.toNat ≤ 32767 ∧
      r.lenConsumed.toNat ≤ 2 ∧ (r.lenConsumed = 1#2 → r.winOutB1 = 0#8)
  | .raise _ _ => True
  | .uninitRead => True

theorem Engine.conclude_inv {e : Engine} (h : e.Inv) (hb : e.status.busy = true) (hs : e.stuck = false)
    {r : CommandResult} (hr : r.legal) : (e.conclude r).Inv := by
  cases r with
  | success regs out =>
    obtain ⟨h1, h2, h3, h4, h5, h6⟩ := hr
    constructor <;> simp_all [h.ibuf_wf, List.range_eq_range']
    · exact fun a b hc => h.ibuf_bound (a, b) hc
  | raise c crc =>
    constructor <;> simp_all [h.ibuf_wf, ResultRegs.zero]
    · exact fun a b hc => h.ibuf_bound (a, b) hc
  | uninitRead =>
    exact ⟨h.busy_clears, h.err_of_cause, h.ibuf_wf, h.ibuf_bound, h.obuf_cells, h.out_bound, h.count_bound,
      h.len_bound, h.consumed_bound, h.second_byte, h.error_zeroes, fun _ => hb, fun _ => hb⟩

/-- What `withInput` gives (40_control R92, R93): the range error, a stop, or the body's result on the bytes of
IBUF[0..IN_LEN). -/
theorem Operands.withInput_cases (o : Operands) (body : List Byte → CommandResult) :
    (Config.ibufBytes < o.regs.inLen.toNat ∧ o.withInput body = .raise .inLenRange 0#32) ∨
    (o.regs.inLen.toNat ≤ Config.ibufBytes ∧ Memory.readBytes o.ibuf 0 o.regs.inLen.toNat = none ∧
      o.withInput body = .uninitRead) ∨
    (∃ bytes, o.regs.inLen.toNat ≤ Config.ibufBytes ∧ bytes.length = o.regs.inLen.toNat ∧
      (∀ i, i < bytes.length → Memory.read o.ibuf i = bytes[i]?) ∧ o.withInput body = body bytes) := by
  unfold Operands.withInput
  by_cases h : o.regs.inLen.toNat > Config.ibufBytes
  · exact .inl ⟨h, if_pos h⟩
  · refine .inr ?_
    rw [if_neg h]
    cases hr : Memory.readBytes o.ibuf 0 o.regs.inLen.toNat with
    | none => exact .inl ⟨by omega, rfl, rfl⟩
    | some bytes =>
      obtain ⟨hl, hb⟩ := (Memory.readBytes_eq_some _ _ _ _).1 hr
      refine .inr ⟨bytes, by omega, hl, ?_, rfl⟩
      intro i hi
      simpa using hb i (by omega)

theorem Operands.withInput_eq {o : Operands} {bytes : List Byte} (h1 : o.regs.inLen.toNat = bytes.length)
    (h2 : bytes.length ≤ Config.ibufBytes) (h3 : ∀ i, i < bytes.length → Memory.read o.ibuf i = bytes[i]?)
    (body : List Byte → CommandResult) : o.withInput body = body bytes := by
  have : Memory.readBytes o.ibuf 0 o.regs.inLen.toNat = some bytes :=
    (Memory.readBytes_eq_some _ _ _ _).2 ⟨h1.symm, fun i hi => by simpa using h3 i (by omega)⟩
  simp only [Operands.withInput, this]
  rw [if_neg (by omega)]

/-- A hazard-free engine reads its registers and its IBUF as they stand (20_memory R60). -/
theorem Engine.operands_of_clear {e : Engine} (h : e.hazard = Hazard.clear) (draw : Nat) :
    e.operands draw = ⟨e.inputs, e.ibuf⟩ := by
  simp [Engine.operands, Engine.seenRegs, Engine.seenIbuf, seen, h, Hazard.clear]

end Sys2Proof.Machine
end

