-- ==== Sys2Proof/Laws/Codec.lean ====
section
/-! SUPPORT. The laws of the packers, the length codec and the two parsers: what each reads back of what is written. -/

namespace Sys2Proof.Machine

/-! ## Packers (42_checksum R103, R104) -/

theorem be16_toNat (x y : Byte) : (be16 x y).toNat = 256 * x.toNat + y.toNat := by
  have hx := x.isLt
  have hy := y.isLt
  simp only [be16, BitVec.toNat_or, BitVec.toNat_shiftLeft, BitVec.toNat_setWidth]
  rw [Nat.mod_eq_of_lt (by omega : x.toNat < 2 ^ 16), Nat.mod_eq_of_lt (by omega : y.toNat < 2 ^ 16),
    Nat.mod_eq_of_lt (by rw [Nat.shiftLeft_eq]; omega), ← Nat.shiftLeft_add_eq_or_of_lt hy, Nat.shiftLeft_eq]
  omega

theorem packBe16_eq (v : Half) :
    packBe16 v = [BitVec.ofNat 8 (v.toNat / 256), BitVec.ofNat 8 (v.toNat % 256)] := by
  simp only [packBe16, List.cons.injEq, and_true]
  constructor <;> apply BitVec.eq_of_toNat_eq <;> simp [Nat.shiftRight_eq_div_pow]

theorem be16_pack (v : Half) : be16 (v.extractLsb' 8 8) (v.extractLsb' 0 8) = v := by
  have := v.isLt
  apply BitVec.eq_of_toNat_eq
  rw [be16_toNat]
  simp [Nat.shiftRight_eq_div_pow]
  omega

theorem packLe32_eq (v : Word) :
    packLe32 v = [BitVec.ofNat 8 (v.toNat % 256), BitVec.ofNat 8 (v.toNat / 256 % 256),
      BitVec.ofNat 8 (v.toNat / 65536 % 256), BitVec.ofNat 8 (v.toNat / 16777216)] := by
  simp only [packLe32, List.cons.injEq, and_true]
  refine ⟨?_, ?_, ?_, ?_⟩ <;> apply BitVec.eq_of_toNat_eq <;> simp [Nat.shiftRight_eq_div_pow]

/-- One lane more: the value of byte b below the lanes of `rest`. -/
theorem leWord_cons_toNat (b : Byte) (rest : List Byte) :
    (leWord (b :: rest)).toNat = (b.toNat + 256 * (leWord rest).toNat) % 2 ^ 32 := by
  have hb := b.isLt
  have hr := (leWord rest).isLt
  simp only [leWord, BitVec.toNat_or, BitVec.toNat_setWidth, BitVec.toNat_shiftLeft]
  rw [Nat.mod_eq_of_lt (by omega : b.toNat < 2 ^ 32)]
  have h : (leWord rest).toNat <<< 8 % 2 ^ 32 = ((leWord rest).toNat % 2 ^ 24) <<< 8 := by
    rw [Nat.shiftLeft_eq, Nat.shiftLeft_eq]; omega
  rw [h, Nat.or_comm, ← Nat.shiftLeft_add_eq_or_of_lt hb, Nat.shiftLeft_eq]
  omega

theorem leWord_four_toNat (a b c d : Byte) : (leWord [a, b, c, d]).toNat =
    a.toNat + 256 * b.toNat + 65536 * c.toNat + 16777216 * d.toNat := by
  have := a.isLt
  have := b.isLt
  have := c.isLt
  have := d.isLt
  simp only [leWord_cons_toNat]
  simp only [leWord, BitVec.toNat_ofNat]
  omega

theorem leWord_packLe32 (v : Word) : leWord (packLe32 v) = v := by
  have := v.isLt
  apply BitVec.eq_of_toNat_eq
  rw [packLe32_eq, leWord_four_toNat]
  simp only [BitVec.toNat_ofNat]
  omega

@[simp] theorem packLe32_length (v : Word) : (packLe32 v).length = 4 := rfl
@[simp] theorem packBe16_length (v : Half) : (packBe16 v).length = 2 := rfl

/-- A message and a trailer, taken apart (42_checksum R105). -/
@[simp] theorem message_append (m : List Byte) (c : Word) : message (m ++ packLe32 c) = m := by
  simp [message]

@[simp] theorem trailer_append (m : List Byte) (c : Word) : trailer (m ++ packLe32 c) = c := by
  simp [trailer, leWord_packLe32]

theorem crcOk_append (m : List Byte) (c : Word) : crcOk (m ++ packLe32 c) = decide (crc32 m = c) := by
  simp only [crcOk, message_append, trailer_append]; rfl

/-! ## Length codec (41_length_codec R96, R97) -/

theorem lenEnc_one {v : Nat} (h : v ≤ 127) : lenEnc v 2 = .ok (.one (BitVec.ofNat 8 v)) := by
  simp [lenEnc, Config.lenWindow, h]

theorem lenEnc_two {v : Nat} (h1 : 128 ≤ v) (h2 : v ≤ 32767) :
    lenEnc v 2 = .ok (.two (BitVec.ofNat 8 (128 + v % 128)) (BitVec.ofNat 8 (v / 128))) := by
  have h3 : (0x80 ||| (v &&& 0x7F)) = 128 + v % 128 := by
    rw [show (0x7F : Nat) = 2 ^ 7 - 1 by rfl, Nat.and_two_pow_sub_one_eq_mod]
    exact (Nat.shiftLeft_add_eq_or_of_lt (Nat.mod_lt v (by norm_num : 2 ^ 7 > 0)) 1).symm
  simp only [lenEnc, Config.lenWindow, Config.maxVarlen, h3, Nat.shiftRight_eq_div_pow]
  rw [if_neg (by simp), if_neg (by omega), if_pos h2]

theorem lenEnc_tooLong {v : Nat} (h : 32768 ≤ v) : lenEnc v 2 = .error .payloadTooLong := by
  simp only [lenEnc, Config.lenWindow, Config.maxVarlen]
  rw [if_neg (by simp), if_neg (by omega), if_neg (by omega)]

theorem lenEnc_window {v ws : Nat} (h : ws ≠ 2) : lenEnc v ws = .error .windowSize := by
  simp [lenEnc, Config.lenWindow, h]

theorem byte_bit7 (b : Byte) : b.getLsbD 7 = decide (128 ≤ b.toNat) := by
  have := b.isLt
  simp only [BitVec.getLsbD, Nat.testBit_eq_decide_div_mod_eq]
  congr 1
  exact propext ⟨fun h => by omega, fun h => by omega⟩

theorem lenDec_one {b0 b1 : Byte} (h : b0.toNat ≤ 127) : lenDec b0 b1 2 = .ok ⟨b0.toNat, 1⟩ := by
  have h7 : b0.getLsbD 7 = false := by rw [byte_bit7]; simp; omega
  simp only [lenDec, ne_eq, not_true_eq_false, if_false, h7, if_true]

theorem lenDec_two {b0 b1 : Byte} (h : 128 ≤ b0.toNat) :
    lenDec b0 b1 2 = .ok ⟨b0.toNat - 128 + 128 * b1.toNat, 2⟩ := by
  have hb := b0.isLt
  have h2 : (b0.toNat &&& 0x7F) ||| (b1.toNat <<< 7) = b0.toNat - 128 + 128 * b1.toNat := by
    rw [show (0x7F : Nat) = 2 ^ 7 - 1 by rfl, Nat.and_two_pow_sub_one_eq_mod, Nat.or_comm,
      ← Nat.shiftLeft_add_eq_or_of_lt (Nat.mod_lt _ (by norm_num)), Nat.shiftLeft_eq]
    omega
  have h7 : b0.getLsbD 7 = true := by rw [byte_bit7]; simpa using h
  simp [lenDec, h7, h2]

theorem lenDec_window {b0 b1 : Byte} {ws : Nat} (h : ws ≠ 2) : lenDec b0 b1 ws = .error .windowSize := by
  simp [lenDec, Config.lenWindow, h]

/-- What `lenDec` can answer with the right window: 1 or 2 bytes, and at most 32767 (R97). -/
theorem lenDec_bound {b0 b1 : Byte} : ∃ d, lenDec b0 b1 2 = .ok d ∧ d.length ≤ 32767 ∧
    (d.consumed = 1 ∨ d.consumed = 2) := by
  have := b0.isLt
  have := b1.isLt
  by_cases h : b0.toNat ≤ 127
  · exact ⟨_, lenDec_one h, by simp only; omega, .inl rfl⟩
  · exact ⟨_, lenDec_two (by omega), by simp only; omega, .inr rfl⟩

/-! ## The image parser (43_frame_codec R109) -/

theorem parseRecords_drop (n : Nat) (l : List Byte) : parseRecords n l = parseRecords 0 (l.drop n) := by
  induction n generalizing l with
  | zero => rfl
  | succ n ih =>
    cases l with
    | nil => simp [parseRecords]
    | cons x rest => simpa [parseRecords] using ih rest

@[simp] theorem parseRecords_nil : parseRecords 0 [] = .ok [] := rfl

theorem parseRecords_header (k hi lo : Byte) (body : List Byte) :
    parseRecords 0 (k :: hi :: lo :: body) =
      if body.length < (be16 hi lo).toNat then .error .recordPayloadShort
      else if (be16 hi lo).toNat > 32767 then .error .payloadTooLong
      else
        match parseRecords 0 (body.drop (be16 hi lo).toNat) with
        | .ok recs => .ok (⟨k, body.take (be16 hi lo).toNat⟩ :: recs)
        | .error cause => .error cause := by
  simp only [parseRecords, Config.maxVarlen]
  rw [parseRecords_drop (2 + (be16 hi lo).toNat), Nat.add_comm 2, List.drop_succ_cons, List.drop_succ_cons] <;>
    rfl

theorem parseRecords_short {l : List Byte} (h : l.length = 1 ∨ l.length = 2) :
    parseRecords 0 l = .error .recordHeaderShort := by
  match l, h with
  | [_], _ => rfl
  | [_, _], _ => rfl

/-- A whole record is read back (30_encoding R81, R82). -/
theorem parseRecords_record {b : Block} (h : b.payload.length ≤ 32767) (rest : List Byte) :
    parseRecords 0 (b.record ++ rest) =
      match parseRecords 0 rest with
      | .ok recs => .ok (b :: recs)
      | .error cause => .error cause := by
  have hl : (be16 ((BitVec.ofNat 16 b.payload.length).extractLsb' 8 8)
      ((BitVec.ofNat 16 b.payload.length).extractLsb' 0 8)).toNat = b.payload.length := by
    rw [be16_pack, BitVec.toNat_ofNat]; omega
  simp only [Block.record, packBe16, List.cons_append, List.nil_append]
  rw [parseRecords_header, hl]
  rw [if_neg (by simp), if_neg (by omega)]
  simp

theorem parseRecords_image {blocks : List Block} (h : ∀ b ∈ blocks, b.payload.length ≤ 32767) (tail : List Byte) :
    parseRecords 0 (image blocks ++ tail) =
      match parseRecords 0 tail with
      | .ok recs => .ok (blocks ++ recs)
      | .error cause => .error cause := by
  induction blocks with
  | nil => simp [image]; split <;> simp_all
  | cons b rest ih =>
    have hb := h b (by simp)
    have ih' := ih fun c hc => h c (List.mem_cons_of_mem _ hc)
    simp only [image, List.flatMap_cons, List.append_assoc] at ih' ⊢
    rw [parseRecords_record hb, ih']
    cases parseRecords 0 tail <;> simp

theorem parseImage_image {blocks : List Block} (h : ∀ b ∈ blocks, b.payload.length ≤ 32767) :
    parseImage (image blocks) = .ok blocks := by
  have := parseRecords_image h []
  simpa [parseImage] using this

/-! ## The block parser (43_frame_codec R115) -/

theorem parseBlocks_drop (n : Nat) (l : List Byte) : parseBlocks n l = parseBlocks 0 (l.drop n) := by
  induction n generalizing l with
  | zero => rfl
  | succ n ih =>
    cases l with
    | nil => simp [parseBlocks]
    | cons x rest => simpa [parseBlocks] using ih rest

/-- At the end of the section only the trailer is left. -/
theorem parseBlocks_end {l : List Byte} (h : l.length ≤ 4) : parseBlocks 0 l = .ok [] := by
  cases l with
  | nil => rfl
  | cons k rest =>
    simp only [List.length_cons] at h
    simp only [parseBlocks]
    rw [if_pos (by omega)]

/-- One block, before the end of the section. -/
theorem parseBlocks_block (k b0 b1 : Byte) (rest : List Byte) (h : 2 ≤ rest.length) {d : DecodedLength}
    (hd : lenDec b0 b1 2 = .ok d) :
    parseBlocks 0 (k :: b0 :: b1 :: rest) =
      if ((rest.length + 2 : Nat) : Int) - 4 - d.consumed < d.length then .error .blockOverrun
      else
        match parseBlocks 0 ((b0 :: b1 :: rest).drop (d.consumed + d.length)) with
        | .ok blocks => .ok (⟨k, ((b0 :: b1 :: rest).drop d.consumed).take d.length⟩ :: blocks)
        | .error cause => .error cause := by
  rw [parseBlocks]
  rw [if_neg (by simp only [List.length_cons]; omega)]
  simp only [Config.lenWindow, hd, List.length_cons]
  rw [parseBlocks_drop (d.consumed + d.length)] <;> rfl

end Sys2Proof.Machine
end

