-- ==== Sys2Proof/WellFormed.lean ====
section
/-! DEFINITION. Which commands, packets and host scripts are well formed. -/

namespace Sys2Proof

/-- A command word has no operand (30_encoding R67), so every command is well formed; `Instr` itself leaves out the
reserved words. -/
def Instr.wf : Instr → Bool
  | .nop => true
  | .frameEncode => true
  | .frameDecode => true
  | .lenEncode => true
  | .lenDecode => true
  | .crc32Gen => true
  | .crc32Check => true

namespace Machine

/-- A block's payload length fits the image's 16-bit field (R81). -/
def Block.imageable (b : Block) : Bool := decide (b.payload.length ≤ 65535)

/-- A block's payload length has a length field (R77). -/
def Block.encodable (b : Block) : Bool := decide (b.payload.length ≤ Config.maxVarlen)

/-- A packet that has a frame: every payload length has a length field and the section fits 16 bits (R118). -/
def Packet.fits (p : Packet) : Bool :=
  p.blocks.all Block.encodable && decide (sectionSize p.blocks ≤ Config.maxSection)

/-- The labels a script defines. -/
def scriptLabels (script : List ScriptLine) : List Nat := script.filterMap ScriptLine.label

/-- The label a statement branches to. -/
def Stmt.target : Stmt → Option Nat
  | .beq _ _ _ l => some l
  | .bne _ _ _ l => some l
  | .write _ _ => none
  | .read _ _ _ => none
  | .comment => none

/-- A script is well formed: no label names two lines and every branch's label names a line (R84). -/
def scriptWf (script : List ScriptLine) : Bool :=
  decide (scriptLabels script).Nodup &&
    (script.filterMap (fun l => l.stmt.target)).all (fun l => (scriptLabels script).contains l)

/-- A `LOADI` stays inside IBUF (R42, R85); the other pseudo-instructions are always well formed. -/
def Pseudo.wf : Pseudo → Bool
  | .loadI start bytes => decide (start + bytes.length ≤ Config.ibufBytes)
  | .cmd i => i.wf
  | .waitDone _ _ => true
  | .ack => true
  | .setWin _ _ _ => true

end Machine

end Sys2Proof
end

