-- ==== Sys2Proof/Laws/Decode.lean ====
section
/-! SUPPORT. Which words the decoder takes and which it rejects (30_encoding R67, R68). -/

namespace Sys2Proof

theorem decode_encode (i : Instr) : decode (encode i) = .ok i := by cases i <;> rfl

/-- The table is searched word by word. -/
theorem decode_of_ne {w : Word} (h : ∀ i, w ≠ encode i) : decode w = .error (.reservedCommand w) := by
  have key : ∀ i, (w == encode i) = false := fun i => beq_eq_false_iff_ne.2 (h i)
  have h0 := key .nop
  have h1 := key .frameEncode
  have h2 := key .frameDecode
  have h3 := key .lenEncode
  have h4 := key .lenDecode
  have h5 := key .crc32Gen
  have h6 := key .crc32Check
  simp only [encode] at h0 h1 h2 h3 h4 h5 h6
  unfold decode commandTable
  simp only [List.lookup, h0, h1, h2, h3, h4, h5, h6]

theorem decode_reserved {w : Word} (h : 7 ≤ w.toNat) : decode w = .error (.reservedCommand w) := by
  refine decode_of_ne fun i hi => ?_
  subst hi
  cases i <;> simp [encode] at h

end Sys2Proof
end

