-- ==== Sys2Proof/Laws/Legal.lean ====
section
/-! SUPPORT. Every command's rule gives a legal result: the bounds of 10_state R24 to R29 and 00_scope R6. -/

namespace Sys2Proof.Machine

/-! ## Bounds of the parsed blocks -/

/-- The bytes of the image of some blocks (30_encoding R81). -/
theorem image_length (blocks : List Block) :
    (image blocks).length = (blocks.map (fun b => b.payload.length)).sum + 3 * blocks.length := by
  induction blocks with
  | nil => rfl
  | cons b rest ih =>
    simp only [image, List.flatMap_cons, List.length_append] at ih ⊢
    simp only [Block.record, List.length_cons, List.length_append, packBe16_length, List.map_cons, List.sum_cons]
    omega

/-- Every block takes at least 2 bytes more than its payload (43_frame_codec R115): the loop stays in the section. -/
theorem parseBlocks_bound (l : List Byte) (blocks : List Block) (h : parseBlocks 0 l = .ok blocks) :
    (blocks.map (fun b => b.payload.length)).sum + 2 * blocks.length ≤ l.length - 4 := by
  induction hn : l.length using Nat.strong_induction_on generalizing l blocks with
  | _ n ih =>
    by_cases hs : l.length ≤ 4
    · rw [parseBlocks_end hs] at h
      cases h; simp
    · match l, hs, h with
      | k :: b0 :: b1 :: rest, hs, h =>
        simp only [List.length_cons] at hs hn
        obtain ⟨d, hd, -, hc⟩ := @lenDec_bound b0 b1
        rw [parseBlocks_block k b0 b1 rest (by omega) hd] at h
        split_ifs at h with hov
        · split at h
          · rename_i tailBlocks ht
            cases h
            have := ih _ (by simp only [List.length_drop, List.length_cons]; omega) _ _ ht rfl
            simp only [List.length_drop, List.length_cons] at this
            simp only [List.map_cons, List.sum_cons, List.length_cons, List.length_take, List.length_drop]
            omega
          · cases h
      | [], hs, _ => simp at hs
      | [_], hs, _ => simp at hs
      | [_, _], hs, _ => simp at hs

theorem serializeBlocks_length {blocks : List Block} {out : List Byte} (h : serializeBlocks blocks = .ok out) :
    out.length = sectionSize blocks := by
  induction blocks generalizing out with
  | nil => cases h; rfl
  | cons b rest ih =>
    simp only [serializeBlocks] at h
    split at h
    · rename_i field tail hf ht
      cases h
      have := ih ht
      have hw : field.bytes.length = lengthWidth b.payload.length := by
        simp only [lenEnc] at hf
        rw [if_neg (by simp)] at hf
        split_ifs at hf with h1 h2
        · cases hf; simp [lengthWidth, h1, LengthField.bytes]
        · cases hf; simp [lengthWidth, h1, LengthField.bytes]
      simp only [sectionSize, List.map_cons, List.sum_cons, Block.wireSize, List.length_cons, List.length_append,
        hw] at this ⊢
      omega
    · cases h
    · cases h

/-- Every block takes at least 2 bytes of the section (43_frame_codec R110). -/
theorem sectionSize_ge (blocks : List Block) : 2 * blocks.length ≤ sectionSize blocks := by
  induction blocks with
  | nil => simp [sectionSize]
  | cons b rest ih =>
    simp only [sectionSize, List.map_cons, List.sum_cons, Block.wireSize, List.length_cons, lengthWidth] at ih ⊢
    split <;> omega

/-! ## The rules -/

theorem withInput_legal {o : Operands} {body : List Byte → CommandResult} (h : ∀ bytes, (body bytes).legal) :
    (o.withInput body).legal := by
  obtain ⟨-, hr⟩ | ⟨-, -, hr⟩ | ⟨bytes, -, -, -, hr⟩ := o.withInput_cases body
  · rw [hr]; trivial
  · rw [hr]; trivial
  · rw [hr]; exact h bytes

theorem lenEncodeResult_legal (o : Operands) : (lenEncodeResult o).legal := by
  unfold lenEncodeResult
  split <;> simp [CommandResult.legal, ResultRegs.zero]

theorem lenDecodeResult_legal (o : Operands) : (lenDecodeResult o).legal := by
  unfold lenDecodeResult
  split
  · trivial
  · rename_i d hd
    by_cases hw : o.regs.winSize.toNat = 2
    · rw [hw] at hd
      obtain ⟨d', hd', hl, hc⟩ := @lenDec_bound o.regs.winB0 o.regs.winB1
      rw [hd] at hd'
      cases hd'
      simp only [CommandResult.legal, ResultRegs.zero, BitVec.toNat_ofNat, List.length_nil]
      refine ⟨by simp, by simp, by simp, by omega, by omega, by simp⟩
    · rw [lenDec_window hw] at hd
      cases hd

theorem encodeFrame_legal (type : Half) (img : List Byte) : (encodeFrame type img).legal := by
  unfold encodeFrame
  split
  · trivial
  · rename_i recs _
    split_ifs with hN
    · trivial
    · simp only [Config.maxSection] at hN
      split
      · trivial
      · rename_i sect hs
        have h1 := serializeBlocks_length hs
        have h2 := sectionSize_ge recs
        simp only [CommandResult.legal, ResultRegs.zero, frameBody, List.length_append, packBe16_length,
          packLe32_length, BitVec.toNat_ofNat]
        refine ⟨by omega, by omega, by omega, by omega, by omega, by simp⟩

theorem decodeSection_legal {type : Half} {crc : Word} {l : List Byte} (h : l.length ≤ 65539) :
    (decodeSection type crc l).legal := by
  unfold decodeSection
  split
  · trivial
  · rename_i blocks hb
    have h1 := parseBlocks_bound l blocks hb
    have h2 := image_length blocks
    simp only [CommandResult.legal, ResultRegs.zero, BitVec.toNat_ofNat]
    refine ⟨by omega, by omega, by omega, by omega, by omega, by simp⟩

theorem decodeFrame_legal (f : List Byte) : (decodeFrame f).legal := by
  unfold decodeFrame
  split_ifs with h1 h2
  · trivial
  · trivial
  · split
    · rename_i t0 t1 n0 n1 rest
      split_ifs with h3
      · trivial
      · have := (be16 n0 n1).isLt
        simp only [List.length_cons] at h1 h3
        exact decodeSection_legal (by omega)
    · trivial

theorem crc32CheckResult_legal (o : Operands) : (crc32CheckResult o).legal :=
  withInput_legal fun f => by
    split_ifs
    · trivial
    · simp [CommandResult.legal, ResultRegs.zero]
    · trivial

theorem ruleOf_legal (i : Instr) (o : Operands) : (ruleOf i o).legal := by
  cases i with
  | nop => simp [ruleOf, nopResult, CommandResult.legal, ResultRegs.zero]
  | frameEncode => exact withInput_legal (encodeFrame_legal _)
  | frameDecode => exact withInput_legal decodeFrame_legal
  | lenEncode => exact lenEncodeResult_legal o
  | lenDecode => exact lenDecodeResult_legal o
  | crc32Gen => exact withInput_legal fun m => by simp [CommandResult.legal, ResultRegs.zero]
  | crc32Check => exact crc32CheckResult_legal o

end Sys2Proof.Machine
end

