-- ==== Sys2Proof/Laws/Host.lean ====
section
/-! SUPPORT. Host accesses, script lines and turns: everything each can do, said once, and that they keep an engine's
legal states. -/

namespace Sys2Proof.Machine

/-! ## Host writes to one engine -/

theorem Engine.accept_inv {e : Engine} (h : e.Inv) (w : Word) : (e.accept w).Inv := by
  constructor <;> simp_all [h.ibuf_wf, h.obuf_cells, h.out_bound, h.count_bound, h.len_bound, h.consumed_bound]
  · exact fun a b hc => h.ibuf_bound (a, b) hc
  · exact h.second_byte

theorem Engine.reject_inv {e : Engine} (h : e.Inv) : e.reject.Inv :=
  ⟨h.busy_clears, h.err_of_cause, h.ibuf_wf, h.ibuf_bound, h.obuf_cells, h.out_bound, h.count_bound,
    h.len_bound, h.consumed_bound, h.second_byte, h.error_zeroes, h.stuck_busy, h.hazard_busy⟩

theorem Engine.writeReg_inv {e : Engine} (h : e.Inv) (r : Reg) (w : Word) : (e.writeReg r w).Inv := by
  have store : ∀ x hz, (hz ≠ Hazard.clear → e.status.busy = true) →
      ({ e with inputs := x, hazard := hz } : Engine).Inv := fun x hz hh =>
    ⟨h.busy_clears, h.err_of_cause, h.ibuf_wf, h.ibuf_bound, h.obuf_cells, h.out_bound, h.count_bound,
      h.len_bound, h.consumed_bound, h.second_byte, h.error_zeroes, h.stuck_busy, hh⟩
  have marked : (if e.status.busy = true then e.hazard.mark r else e.hazard) ≠ Hazard.clear →
      e.status.busy = true := by
    intro hh
    by_contra hb
    rw [if_neg hb] at hh
    exact hb (h.hazard_busy hh)
  cases r with
  | cmd =>
    simp only [Engine.writeReg, Engine.issue]
    split
    · exact Engine.reject_inv h
    · exact Engine.accept_inv h w
  | status =>
    refine ⟨?_, h.err_of_cause, h.ibuf_wf, h.ibuf_bound, h.obuf_cells, h.out_bound, h.count_bound,
      h.len_bound, h.consumed_bound, h.second_byte, h.error_zeroes, h.stuck_busy, h.hazard_busy⟩
    intro hb
    obtain ⟨h1, h2, h3⟩ := h.busy_clears hb
    exact ⟨by simp [Engine.writeReg, h1], h2, h3⟩
  | irqEn =>
    exact ⟨h.busy_clears, h.err_of_cause, h.ibuf_wf, h.ibuf_bound, h.obuf_cells, h.out_bound, h.count_bound,
      h.len_bound, h.consumed_bound, h.second_byte, h.error_zeroes, h.stuck_busy, h.hazard_busy⟩
  | inLen => exact store _ _ marked
  | typeIn => exact store _ _ marked
  | lenIn => exact store _ _ marked
  | lenWinIn => exact store _ _ marked
  | id | outLen | typeOut | blockCount | lenOut | lenWinOut | lenConsumed | crcOut | reserved => exact h

theorem Engine.writeIbuf_inv {e : Engine} (h : e.Inv) {a : Nat} {bytes : List Byte}
    (hb : a + bytes.length ≤ Config.ibufBytes) : (e.writeIbuf a bytes).Inv := by
  refine ⟨h.busy_clears, h.err_of_cause, Memory.writeBytes_wf h.ibuf_wf _ _, ?_, h.obuf_cells, h.out_bound,
    h.count_bound, h.len_bound, h.consumed_bound, h.second_byte, h.error_zeroes, h.stuck_busy, ?_⟩
  · intro c hc
    rcases Memory.mem_writeBytes hc with hc | ⟨-, hc⟩
    · exact h.ibuf_bound c hc
    · omega
  · intro hh
    by_contra hbusy
    have hbusy' : ¬ e.status.busy = true := hbusy
    simp only [Engine.writeIbuf] at hh
    rw [if_neg hbusy'] at hh
    exact hbusy (h.hazard_busy hh)

/-! ## Host accesses -/

@[simp] theorem WriteData.lanes_length (d : WriteData) : d.lanes.length = d.size.bytes := by cases d <;> rfl

/-- What an access that is no bus error reaches, by region (20_memory R42). -/
theorem target_ibuf_bound {off : Nat} {size : AccessSize} {i : Nat} (h : target off size = some (.ibuf i)) :
    i + size.bytes ≤ Config.ibufBytes ∧ off = 0x20000 + i ∧ off % size.bytes = 0 := by
  unfold target at h
  split_ifs at h with h1 h2 h3 h4
  · cases size <;> simp at h
  · simp only [Option.some.injEq, Target.ibuf.injEq] at h
    simp only [ne_eq, Decidable.not_not] at h1
    simp only [Config.ibufBytes] at h3 ⊢
    cases size <;> simp only [AccessSize.bytes] at h1 ⊢ <;> omega
  · simp at h

theorem target_reg {off : Nat} (h1 : off % 4 = 0) (h2 : off < 0x100) :
    target off .four = some (.reg (Reg.at off)) := by
  simp [target, AccessSize.bytes, h1, h2]

theorem target_ibuf {off : Nat} {size : AccessSize} (h1 : off % size.bytes = 0) (h2 : 0x20000 ≤ off)
    (h3 : off < 0x40000) : target off size = some (.ibuf (off - 0x20000)) := by
  unfold target
  rw [if_neg (by simpa using h1), if_neg (by omega), if_pos ⟨h2, by simp only [Config.ibufBytes]; omega⟩]

theorem target_obuf {off : Nat} {size : AccessSize} (h1 : off % size.bytes = 0) (h2 : 0x40000 ≤ off)
    (h3 : off < 0x60000) : target off size = some (.obuf (off - 0x40000)) := by
  unfold target
  rw [if_neg (by simpa using h1), if_neg (by omega), if_neg (by simp only [Config.ibufBytes]; omega),
    if_pos ⟨h2, by simp only [Config.obufBytes]; omega⟩]

/-- Which accesses reach nothing: misaligned, narrow in the register page, or unmapped (20_memory R44, R47, R48). -/
theorem target_eq_none (off : Nat) (size : AccessSize) : target off size = none ↔
    off % size.bytes ≠ 0 ∨ (off < 0x100 ∧ size ≠ .four) ∨ (0x100 ≤ off ∧ off < 0x20000) ∨ 0x60000 ≤ off := by
  unfold target
  simp only [Config.ibufBytes, Config.obufBytes]
  split_ifs with h1 h2 h3 h4
  · simp [h1]
  · cases size <;> simp_all
    omega
  · simp only [false_iff]; omega
  · simp only [false_iff]; omega
  · simp only [true_iff]; omega

theorem State.hostAccess_of_none {t : Transaction} (h : target t.off.toNat t.access.size = none) (s : State)
    (n : Nat) (e : Engine) : s.hostAccess n e t = s.respond .busError := by
  simp [State.hostAccess, h]

theorem State.hostAccess_read {off : BitVec 19} {size : AccessSize} {tg : Target}
    (h : target off.toNat size = some tg) (s : State) (n : Nat) (e : Engine) :
    s.hostAccess n e ⟨off, .read size⟩ = s.hostRead e tg size := by
  simp only [State.hostAccess, Access.size, h]

/-- A 32-bit write to the register page (10_state R14). -/
theorem State.hostAccess_writeReg {off : BitVec 19} (h1 : off.toNat % 4 = 0) (h2 : off.toNat < 0x100) (s : State)
    (n : Nat) (e : Engine) (w : Word) : s.hostAccess n e ⟨off, .write (.word w)⟩ =
      ((s.setEngine n (e.writeReg (Reg.at off.toNat) w)).recordIf
        (e.status.busy && (Reg.at off.toNat).isInput) .hostHazard).respond .written := by
  simp only [State.hostAccess, Access.size, WriteData.size, target_reg h1 h2, State.hostWrite]

/-- A write to IBUF (20_memory R46). -/
theorem State.hostAccess_writeIbuf {off : BitVec 19} {d : WriteData} (h1 : off.toNat % d.size.bytes = 0)
    (h2 : 0x20000 ≤ off.toNat) (h3 : off.toNat < 0x40000) (s : State) (n : Nat) (e : Engine) :
    s.hostAccess n e ⟨off, .write d⟩ =
      ((s.setEngine n (e.writeIbuf (off.toNat - 0x20000) d.lanes)).recordIf e.status.busy .hostHazard).respond
        .written := by
  have h : target off.toNat d.size = some (.ibuf (off.toNat - 0x20000)) := target_ibuf h1 h2 h3
  simp only [State.hostAccess, Access.size, h, State.hostWrite]

/-- Every host access leaves the engines as they were, or writes one register or some bytes of IBUF of engine n. -/
theorem State.hostAccess_engines (s : State) (n : Nat) (e : Engine) (t : Transaction) :
    (s.hostAccess n e t).engines = s.engines ∨
    (∃ r w, (s.hostAccess n e t).engines = s.engines.set n (e.writeReg r w)) ∨
    (∃ i bytes, i + bytes.length ≤ Config.ibufBytes ∧
      (s.hostAccess n e t).engines = s.engines.set n (e.writeIbuf i bytes)) := by
  obtain ⟨off, acc⟩ := t
  unfold State.hostAccess
  split
  · exact .inl rfl
  · rename_i tg htg
    cases acc with
    | read size =>
      left
      cases tg with
      | reg r => simp only [State.hostRead]; split <;> rfl
      | ibuf i =>
        simp only [State.hostRead]
        cases Memory.readBytes e.ibuf i size.bytes <;> rfl
      | obuf i =>
        simp only [State.hostRead]
        split
        · rfl
        · cases Memory.readBytes e.obuf i size.bytes <;> rfl
    | write d =>
      cases tg with
      | reg r =>
        cases d with
        | byte v => exact .inl rfl
        | half v => exact .inl rfl
        | word w => right; left; exact ⟨r, w, by simp [State.hostWrite]⟩
      | ibuf i =>
        right; right
        refine ⟨i, d.lanes, ?_, by simp [State.hostWrite]⟩
        rw [WriteData.lanes_length]
        exact (target_ibuf_bound htg).1
      | obuf i => exact .inl rfl

/-- A host access keeps the schedule, the active engine and the script, and only adds model faults. -/
theorem State.hostAccess_frame (s : State) (n : Nat) (e : Engine) (t : Transaction) :
    (s.hostAccess n e t).schedule = s.schedule ∧ (s.hostAccess n e t).active = s.active ∧
    (s.hostAccess n e t).script = s.script ∧ FaultSet.subset s.faults (s.hostAccess n e t).faults := by
  have keep : FaultSet.subset s.faults s.faults := ⟨id, id⟩
  have more : ∀ f, FaultSet.subset s.faults (s.faults.record f) := fun f => by
    cases f <;> exact ⟨fun h => by simp [FaultSet.record, h], fun h => by simp [FaultSet.record, h]⟩
  obtain ⟨off, acc⟩ := t
  unfold State.hostAccess
  split
  · exact ⟨rfl, rfl, rfl, keep⟩
  · rename_i tg htg
    cases acc with
    | read size =>
      cases tg with
      | reg r => simp only [State.hostRead]; split <;> exact ⟨rfl, rfl, rfl, keep⟩
      | ibuf i =>
        simp only [State.hostRead]
        cases Memory.readBytes e.ibuf i size.bytes with
        | none => exact ⟨rfl, rfl, rfl, more .uninitRead⟩
        | some cells => exact ⟨rfl, rfl, rfl, keep⟩
      | obuf i =>
        simp only [State.hostRead]
        split
        · exact ⟨rfl, rfl, rfl, keep⟩
        · cases Memory.readBytes e.obuf i size.bytes with
          | none => exact ⟨rfl, rfl, rfl, more .uninitRead⟩
          | some cells => exact ⟨rfl, rfl, rfl, keep⟩
    | write d =>
      cases tg with
      | reg r =>
        cases d with
        | byte v => exact ⟨rfl, rfl, rfl, keep⟩
        | half v => exact ⟨rfl, rfl, rfl, keep⟩
        | word w =>
          refine ⟨by simp [State.hostWrite], by simp [State.hostWrite], by simp [State.hostWrite], ?_⟩
          simp only [State.hostWrite, State.respond_faults, State.recordIf_faults, State.setEngine_faults]
          split
          · exact more _
          · exact keep
      | ibuf i =>
        refine ⟨by simp [State.hostWrite], by simp [State.hostWrite], by simp [State.hostWrite], ?_⟩
        simp only [State.hostWrite, State.respond_faults, State.recordIf_faults, State.setEngine_faults]
        split
        · exact more _
        · exact keep
      | obuf i => exact ⟨rfl, rfl, rfl, keep⟩

/-! ## Turns -/

/-- The inverse of R43's window map. -/
theorem windowOf_window (k : Nat) (off : BitVec 19) :
    windowOf (Config.engineBase + k * Config.engineWindow + off.toNat) = some (k, off) := by
  have key : ∀ w b : Nat, w = 524288 → (b * w + k * w + off.toNat) / w = b + k ∧
      (b * w + k * w + off.toNat) % w = off.toNat := by
    intro w b hw
    have hoff := off.isLt
    have h : b * w + k * w + off.toNat = off.toNat + w * (b + k) := by
      rw [Nat.mul_add, Nat.mul_comm b, Nat.mul_comm k]; omega
    rw [h, Nat.add_mul_div_left _ _ (by omega), Nat.div_eq_of_lt (by omega), Nat.add_mul_mod_self_left,
      Nat.mod_eq_of_lt (by omega)]
    omega
  obtain ⟨h1, h2⟩ := key Config.engineWindow Config.engineBaseIndex rfl
  unfold windowOf Config.engineBase
  rw [h1, h2, if_neg (by omega), Nat.add_sub_cancel_left]
  simp

theorem step_bus {s : State} {addr n : Nat} {a : Access} {off : BitVec 19} {rest : List Turn} {e : Engine}
    (hs : s.schedule = .bus addr a :: rest) (hw : windowOf addr = some (n, off)) (he : s.engines[n]? = some e) :
    step s = .next (({ s with schedule := rest } : State).hostAccess n e ⟨off, a⟩) := by
  rw [step, hs]
  simp only [State.takeTurn, State.busTurn, hw, he]

theorem step_host {s : State} {n : Nat} {t : Transaction} {rest : List Turn} {e : Engine}
    (h : s.schedule = .host n t :: rest) (he : s.engines[n]? = some e) :
    step s = .next (({ s with schedule := rest } : State).hostAccess n e t) := by
  simp [step, h, State.takeTurn, State.hostTurn, he]

theorem step_perform {s : State} {n : Nat} {rest : List Turn} {e : Engine}
    (h : s.schedule = .perform n :: rest) (he : s.engines[n]? = some e) :
    step s = if e.enabled then ({ s with schedule := rest, active := n } : State).runWord e.cmd
      else .next { s with schedule := rest } := by
  simp [step, h, State.takeTurn, State.performTurn, he]

theorem step_script {s : State} {rest : List Turn} (h : s.schedule = .script :: rest) :
    step s = ({ s with schedule := rest } : State).scriptTurn := by
  simp [step, h, State.takeTurn]

/-- A script turn that answers a next state issued at most one host access, to its own engine, and changed nothing
else but the script (30_encoding R84). -/
theorem State.scriptTurn_cases {s t : State} (h : s.scriptTurn = .next t) :
    (∃ sc, t = { s with script := sc }) ∨
    (∃ e tr sc, s.engines[s.script.engine]? = some e ∧
      t = { s.hostAccess s.script.engine e tr with script := sc }) := by
  unfold State.scriptTurn at h
  split at h
  · cases h; exact .inl ⟨s.script, rfl⟩
  · rename_i line _
    have hbranch : ∀ sense name mask value label, s.branch sense name mask value label = .next t →
        ∃ sc, t = { s with script := sc } := by
      intro sense name mask value label hb
      unfold State.branch at hb
      split at hb
      · cases hb
      · split at hb
        · split at hb
          · cases hb
          · cases hb; exact ⟨_, rfl⟩
        · cases hb; exact ⟨_, rfl⟩
    split at h
    · cases h; exact .inl ⟨_, rfl⟩
    · split at h
      · cases h
      · rename_i e he
        cases h; exact .inr ⟨e, _, _, he, rfl⟩
    · split at h
      · cases h
      · rename_i e he
        cases h; exact .inr ⟨e, _, _, he, rfl⟩
    · exact .inl (hbranch _ _ _ _ _ h)
    · exact .inl (hbranch _ _ _ _ _ h)

/-- A word's command runs as one perform step of the active engine, with a legal result (40_control R89). -/
theorem State.runWord_eq {s : State} {e : Engine} (h : s.engines[s.active]? = some e) (w : Word) :
    ∃ r : CommandResult, r.legal ∧ s.runWord w = .next (s.concluded e r) := by
  unfold State.runWord
  split
  · rename_i i _
    exact ⟨_, ruleOf_legal i _, exec_eq h i⟩
  · exact ⟨.raise .reservedCommand 0#32, trivial, performCommand_eq h reservedResult⟩

/-- A platform access that answers a next state is a host access to the engine whose window it lies in. -/
theorem State.busTurn_cases {s t : State} {addr : Nat} {access : Access} (h : s.busTurn addr access = .next t) :
    ∃ n e off, s.engines[n]? = some e ∧ t = s.hostAccess n e ⟨off, access⟩ := by
  unfold State.busTurn at h
  generalize windowOf addr = w at h
  rcases w with _ | ⟨n, off⟩
  · cases h
  · cases he : s.engines[n]? with
    | none => simp only [he] at h; cases h
    | some e => simp only [he] at h; cases h; exact ⟨n, e, off, he, rfl⟩

theorem State.with_own_script {x : State} {sc : Script} (h : x.script = sc) : x = { x with script := sc } := by
  cases h; rfl

theorem Engine.enabled_iff (e : Engine) : e.enabled = true ↔ e.status.busy = true ∧ e.stuck = false := by
  simp [Engine.enabled]

theorem State.enabledAt_iff (s : State) (n : Nat) :
    s.enabledAt n = true ↔ ∃ e, s.engines[n]? = some e ∧ e.enabled = true := by
  unfold State.enabledAt
  cases s.engines[n]? <;> simp

/-- A perform turn of an enabled engine is one perform step with a legal result (40_control R89). -/
theorem State.performTurn_enabled {s : State} {n : Nat} {e : Engine} (he : s.engines[n]? = some e)
    (hen : e.enabled = true) :
    ∃ r : CommandResult, r.legal ∧ s.performTurn n = .next (({ s with active := n } : State).concluded e r) := by
  obtain ⟨r, hr, hrun⟩ := State.runWord_eq (s := { s with active := n }) he e.cmd
  exact ⟨r, hr, by simp only [State.performTurn, he, hen, if_true]; exact hrun⟩

theorem State.performTurn_disabled {s : State} {n : Nat} {e : Engine} (he : s.engines[n]? = some e)
    (hen : e.enabled = false) : s.performTurn n = .next s := by
  simp [State.performTurn, he, hen]

/-- The engine that performs after the last turn: the first enabled one. -/
theorem State.first_enabled {s : State} {n : Nat} (h : s.engines.findIdx? Engine.enabled = some n) :
    ∃ e, s.engines[n]? = some e ∧ e.enabled = true ∧ ∀ m, m < n → s.enabledAt m = false := by
  obtain ⟨hlt, hen, hbefore⟩ := List.findIdx?_eq_some_iff_getElem.1 h
  refine ⟨s.engines[n], List.getElem?_eq_getElem hlt, hen, fun m hm => ?_⟩
  have := hbefore m hm
  simp only [State.enabledAt, List.getElem?_eq_getElem (Nat.lt_trans hm hlt)]
  simpa using this

/-- With no turn left and no engine enabled a step changes nothing. -/
theorem step_idle {s : State} (hs : s.schedule = []) (h : ∀ e ∈ s.engines, e.enabled = false) :
    step s = .next s := by
  have hn : s.engines.findIdx? Engine.enabled = none := List.findIdx?_eq_none_iff.2 h
  simp only [step, hs, State.drainTurn, hn]

/-- With no turn left the first enabled engine takes its perform step. -/
theorem step_drain {s : State} {n : Nat} {e : Engine} (hs : s.schedule = [])
    (hn : s.engines.findIdx? Engine.enabled = some n) (he : s.engines[n]? = some e) :
    step s = ({ s with active := n } : State).runWord e.cmd := by
  obtain ⟨e', he', hen, -⟩ := State.first_enabled hn
  rw [he] at he'
  cases he'
  simp only [step, hs, State.drainTurn, hn, State.performTurn, he, hen, if_true]

/-- Everything a step can do (00_scope R7): nothing, one host access, a script line, one perform step, or a reset.
Each takes a turn off the schedule, if there is one; with none left the first enabled engine performs. -/
theorem step_cases {s t : State} (h : step s = .next t) :
    (∃ sc, t = { s with schedule := s.schedule.tail, script := sc } ∧
      (s.schedule = [] → s.engines.findIdx? Engine.enabled = none)) ∨
    (∃ n e tr sc, s.schedule ≠ [] ∧ s.engines[n]? = some e ∧
      t = { ({ s with schedule := s.schedule.tail } : State).hostAccess n e tr with script := sc }) ∨
    (∃ n e r, s.engines[n]? = some e ∧ e.enabled = true ∧ CommandResult.legal r ∧
      t = ({ s with schedule := s.schedule.tail, active := n } : State).concluded e r ∧
      (s.schedule = [] → s.engines.findIdx? Engine.enabled = some n)) ∨
    (s.schedule.head? = some .reset ∧ t = ({ s with schedule := s.schedule.tail } : State).resetStep) := by
  unfold step at h
  split at h
  · rename_i hs
    have hself : s = { s with schedule := s.schedule.tail } := by cases s; simp_all
    unfold State.drainTurn at h
    split at h
    · rename_i hn
      cases h
      exact .inl ⟨s.script, hself, fun _ => hn⟩
    · rename_i n hn
      obtain ⟨e, he, hen, -⟩ := State.first_enabled hn
      obtain ⟨r, hr, hrun⟩ := State.performTurn_enabled he hen
      rw [hrun] at h
      cases h
      exact .inr (.inr (.inl ⟨n, e, r, he, hen, hr, by rw [hs]; cases s; cases hs; rfl, fun _ => hn⟩))
  · rename_i turn rest hs
    rw [hs]
    simp only [List.tail_cons, List.head?_cons]
    cases turn with
    | host n tr =>
      simp only [State.takeTurn, State.hostTurn] at h
      split at h
      · cases h
      · rename_i e he
        cases h
        refine .inr (.inl ⟨n, e, tr, s.script, by simp, he, ?_⟩)
        exact State.with_own_script (State.hostAccess_frame _ n e tr).2.2.1
    | bus addr access =>
      simp only [State.takeTurn] at h
      obtain ⟨n, e, off, he, rfl⟩ := State.busTurn_cases h
      refine .inr (.inl ⟨n, e, ⟨off, access⟩, s.script, by simp, he, ?_⟩)
      exact State.with_own_script (State.hostAccess_frame _ n e _).2.2.1
    | script =>
      rcases State.scriptTurn_cases h with ⟨sc, rfl⟩ | ⟨e, tr, sc, he, rfl⟩
      · exact .inl ⟨sc, rfl, by simp⟩
      · exact .inr (.inl ⟨s.script.engine, e, tr, sc, by simp, he, rfl⟩)
    | perform n =>
      have h : ({ s with schedule := rest } : State).performTurn n = .next t := h
      cases he : s.engines[n]? with
      | none => simp [State.performTurn, he] at h
      | some e =>
        cases hen : e.enabled with
        | true =>
          obtain ⟨r, hr, hrun⟩ := State.performTurn_enabled (s := { s with schedule := rest }) he hen
          rw [hrun] at h
          cases h
          exact .inr (.inr (.inl ⟨n, e, r, he, hen, hr, rfl, by simp⟩))
        | false =>
          rw [State.performTurn_disabled (s := { s with schedule := rest }) he hen] at h
          cases h
          exact .inl ⟨s.script, rfl, by simp⟩
    | reset => cases h; exact .inr (.inr (.inr ⟨rfl, rfl⟩))

/-- The first of several steps. -/
theorem run_succ {s t : State} (h : step s = .next t) (n : Nat) :
    Host.Core.run Sys2Proof.core (n + 1) s = Host.Core.run Sys2Proof.core n t := by
  have h' : Sys2Proof.core.step s = .next t := h
  simp only [Host.Core.run, h']

/-! ## A pending command -/

/-- No host write to its registers ends or changes a pending command (40_control R88). -/
theorem Engine.writeReg_pending {e : Engine} (h : e.enabled = true) (r : Reg) (w : Word) :
    (e.writeReg r w).enabled = true ∧ (e.writeReg r w).cmd = e.cmd := by
  obtain ⟨hb, hs⟩ := (Engine.enabled_iff e).1 h
  cases r <;> simp [Engine.enabled_iff, Engine.writeReg, Engine.issue, Engine.reject, Status.acknowledge, hb, hs]

/-- A perform step ends the pending command: it completes, or UNINIT_READ stops it (40_control R90, R91, R93). -/
theorem commandEnds_of_concluded {s t : State} {n : Nat} {e : Engine} (he : s.engines[n]? = some e)
    (hen : e.enabled = true) {x : State} (hx : x.engines = s.engines) (ha : x.active = n) {r : CommandResult}
    (ht : t = x.concluded e r) : CommandEnds n e.cmd s t := by
  have hlt := (List.getElem?_eq_some_iff.1 he).1
  subst ht
  refine ⟨e, e.conclude r, he, hen, rfl, by simp [hx, ha, hlt], ?_⟩
  cases r with
  | success regs out => exact .inl ⟨rfl, rfl, rfl⟩
  | raise cause crc => exact .inl ⟨rfl, rfl, rfl⟩
  | uninitRead => exact .inr (.inl ⟨rfl, by simp [CommandResult.isUninit, FaultSet.record]⟩)

/-- What any step does to a pending command: it ends it or leaves it pending. If it leaves it, a turn was taken off the
schedule, or the schedule was used up and an engine of a lower number performed, and none was enabled by that. -/
theorem pending_step {s t : State} (h : step s = .next t) {n : Nat} {e : Engine} (he : s.engines[n]? = some e)
    (hen : e.enabled = true) :
    CommandEnds n e.cmd s t ∨
      ((∃ e', t.engines[n]? = some e' ∧ e'.enabled = true ∧ e'.cmd = e.cmd) ∧ t.schedule = s.schedule.tail ∧
        (s.schedule = [] → ∃ m, m < n ∧ s.enabledAt m = true ∧ t.enabledAt m = false ∧
          ∀ i, i ≠ m → t.enabledAt i = s.enabledAt i)) := by
  have hlt := (List.getElem?_eq_some_iff.1 he).1
  rcases step_cases h with ⟨sc, rfl, hn⟩ | ⟨m, a, tr, sc, hs, ha, rfl⟩ | ⟨m, a, r, ha, hen', hr, rfl, hm⟩ | ⟨hs, rfl⟩
  · refine .inr ⟨⟨e, he, hen, rfl⟩, rfl, fun hs => ?_⟩
    have := List.findIdx?_eq_none_iff.1 (hn hs) e (List.mem_of_getElem? he)
    rw [hen] at this
    cases this
  · refine .inr ⟨?_, (State.hostAccess_frame _ m a tr).1, fun h => absurd h hs⟩
    have hcases := State.hostAccess_engines ({ s with schedule := s.schedule.tail } : State) m a tr
    by_cases hmn : m = n
    · subst hmn
      rw [he] at ha
      cases ha
      rcases hcases with h | ⟨r, w, h⟩ | ⟨i, bs, -, h⟩
      · exact ⟨e, by simp only [h]; exact he, hen, rfl⟩
      · exact ⟨_, by simp only [h]; simp [hlt], (Engine.writeReg_pending hen r w).1,
          (Engine.writeReg_pending hen r w).2⟩
      · exact ⟨e.writeIbuf i bs, by simp only [h]; simp [hlt], hen, rfl⟩
    · rcases hcases with h | ⟨r, w, h⟩ | ⟨i, bs, -, h⟩
      · exact ⟨e, by simp only [h]; exact he, hen, rfl⟩
      · exact ⟨e, by simp only [h]; rw [List.getElem?_set_ne hmn]; exact he, hen, rfl⟩
      · exact ⟨e, by simp only [h]; rw [List.getElem?_set_ne hmn]; exact he, hen, rfl⟩
  · by_cases hmn : m = n
    · subst hmn
      rw [he] at ha
      cases ha
      exact .inl (commandEnds_of_concluded (x := { s with schedule := s.schedule.tail, active := m }) he hen rfl rfl rfl)
    · have hml := (List.getElem?_eq_some_iff.1 ha).1
      refine .inr ⟨⟨e, by simp [List.getElem?_set_ne hmn, he], hen, rfl⟩, by simp, fun hs => ⟨m, ?_, ?_, ?_, ?_⟩⟩
      · obtain ⟨_, _, _, hfirst⟩ := State.first_enabled (hm hs)
        by_contra hge
        have := hfirst n (by omega)
        rw [(State.enabledAt_iff s n).2 ⟨e, he, hen⟩] at this
        cases this
      · exact (State.enabledAt_iff s m).2 ⟨a, ha, hen'⟩
      · simp only [State.enabledAt, State.concluded_engines, List.getElem?_set_self hml]
        cases r <;> simp [Engine.enabled, Engine.conclude, Engine.completeSuccess, Engine.completeError,
          Status.succeeded, Status.failed]
      · intro i hi
        simp [State.enabledAt, List.getElem?_set_ne (Ne.symm hi)]
  · exact .inl ⟨e, Engine.reset, he, hen, rfl, by simp [State.resetStep, hlt], .inr (.inr ⟨hs, rfl⟩)⟩

end Sys2Proof.Machine
end

