-- ==== Sys2Proof/Laws/PerInstr.lean ====
section
/-! SUPPORT. What holds of every command as syntax, one lemma per constructor (30_encoding R67). -/

namespace Sys2Proof.Laws.Encoding

/-- A command is well formed, its word decodes to it, and the word lies below the reserved ones. -/
def Statement (i : Instr) : Prop :=
  i.wf = true ∧ decode (encode i) = .ok i ∧ (encode i).toNat < 7

theorem nop : Statement .nop := ⟨rfl, rfl, by decide⟩

theorem frameEncode : Statement .frameEncode := ⟨rfl, rfl, by decide⟩

theorem frameDecode : Statement .frameDecode := ⟨rfl, rfl, by decide⟩

theorem lenEncode : Statement .lenEncode := ⟨rfl, rfl, by decide⟩

theorem lenDecode : Statement .lenDecode := ⟨rfl, rfl, by decide⟩

theorem crc32Gen : Statement .crc32Gen := ⟨rfl, rfl, by decide⟩

theorem crc32Check : Statement .crc32Check := ⟨rfl, rfl, by decide⟩

end Sys2Proof.Laws.Encoding
end

