-- ==== Sys2Proof/Tests/Slice0.lean ====
section
/-! SUPPORT. The model's own tests. Expected values are those of the spec's encodings and of 95_test_vectors.md (the
vector is named in each docstring). The last section shows, for each statement with hypotheses, concrete inputs that
meet them all. -/

namespace Sys2Proof.Tests

open Sys2Proof.Machine Sys2Proof.Claims

/-! ## Decoding: the words of 30_encoding R67, bit by bit, first word's bit 0 last -/

theorem test_decode_nop : decode 0b00000000000000000000000000000000#32 = .ok .nop := by decide
theorem test_decode_frame_encode : decode 0b00000000000000000000000000000001#32 = .ok .frameEncode := by decide
theorem test_decode_frame_decode : decode 0b00000000000000000000000000000010#32 = .ok .frameDecode := by decide
theorem test_decode_len_encode : decode 0b00000000000000000000000000000011#32 = .ok .lenEncode := by decide
theorem test_decode_len_decode : decode 0b00000000000000000000000000000100#32 = .ok .lenDecode := by decide
theorem test_decode_crc32_gen : decode 0b00000000000000000000000000000101#32 = .ok .crc32Gen := by decide
theorem test_decode_crc32_check : decode 0b00000000000000000000000000000110#32 = .ok .crc32Check := by decide

/-- R68, R95: no bit of a word is ignored. -/
theorem test_decode_reserved : decode 0x80000001#32 = .error (.reservedCommand 0x80000001#32) := by decide

theorem test_table_word : decodeTableWord 32 5 = some .crc32Gen ∧ decodeTableWord 32 7 = none ∧
    decodeTableWord 40 5 = none := by decide

/-! ## Well-formedness: one ill-formed term for each check, and it is refused -/

/-- A payload of n zero bytes. -/
def zeros (n : Nat) : List Byte := List.replicate n 0#8

theorem zeros_length (n : Nat) : (zeros n).length = n := List.length_replicate

theorem test_wf_imageable : Block.imageable ⟨1#8, zeros 65536⟩ = false := by
  simp only [Block.imageable, zeros_length]; decide

theorem test_wf_encodable : Block.encodable ⟨1#8, zeros 32768⟩ = false := by
  simp only [Block.encodable, zeros_length]; decide

/-- Two payloads of 32767 bytes have length fields but no section (90_conflicts C5, FE12). -/
theorem test_wf_fits : Packet.fits ⟨1#16, [⟨1#8, zeros 32767⟩, ⟨1#8, zeros 32767⟩]⟩ = false := by
  simp only [Packet.fits, sectionSize, Block.wireSize, lengthWidth, List.map_cons, List.map_nil, List.all_cons,
    List.all_nil, Block.encodable, zeros_length]
  decide

theorem test_wf_label_twice : scriptWf [⟨some 1, .comment⟩, ⟨some 1, .comment⟩] = false := by decide

theorem test_wf_label_missing : scriptWf [⟨some 1, .comment⟩, ⟨none, .bne 0 1#32 0#32 2⟩] = false := by decide

theorem test_wf_load : Pseudo.wf (.loadI 131071 [0#8, 0#8]) = false := by decide

/-- Every command is well formed (R67); the checks above refuse by data, not by command. -/
theorem test_wf_instr : ∀ i : Instr, i.wf = true := by intro i; cases i <;> rfl

theorem test_reset_memory_wf : Memory.wf Engine.reset.ibuf ∧ Memory.wf Engine.reset.obuf := by decide

/-! ## One step on a small state -/

/-- An engine that is idle and holds `bytes` as its input, IN_LEN their number. -/
def loaded (bytes : List Byte) : Engine :=
  { Engine.reset with
    inputs := { InputRegs.reset with inLen := BitVec.ofNat 32 bytes.length }
    ibuf := Memory.ofBytes 0 bytes }

/-- An idle engine with a length to encode and a window. -/
def window (len : Word) (b0 b1 size : Byte) : Engine :=
  { Engine.reset with
    inputs := { InputRegs.reset with lenIn := len, winB0 := b0, winB1 := b1, winSize := size } }

/-- A machine of one engine with one turn to come. -/
def machine (e : Engine) (turn : Turn) : State := { State.reset with engines := [e], schedule := [turn] }

/-- Engine 0 after the step. -/
def after (s : State) : Option Engine :=
  match step s with
  | .next t => t.engines[0]?
  | .fault _ => none
  | .refused _ => none

/-- Engine 0 after the perform step of a command word. -/
def run (w : Word) (e : Engine) : Option Engine := after (machine (e.accept w) (.perform 0))

/-- The response to a host access to engine 0. -/
def reply (e : Engine) (off : BitVec 19) (a : Access) : Option Response :=
  match step (machine e (.host 0 ⟨off, a⟩)) with
  | .next t => t.response
  | .fault _ => none
  | .refused _ => none

/-- Registers of an engine, and the bytes of OBUF. -/
def shows (regs : List Reg) (e : Option Engine) : Option (List Word × List Byte) :=
  e.map fun e => (regs.map e.readReg, e.obuf.map Prod.snd)

/-- STATUS and every result register. -/
def results : List Reg :=
  [.status, .outLen, .typeOut, .blockCount, .lenOut, .lenWinOut, .lenConsumed, .crcOut]

/-- C1. -/
theorem test_nop : shows (.cmd :: results) (run 0#32 (loaded [])) =
    some ([0#32, 2#32, 0#32, 0#32, 0#32, 0#32, 0#32, 0#32, 0#32], []) := by decide +kernel

/-- C8: NOP after an error. -/
theorem test_nop_after_error :
    shows [.status] (run 0#32 { loaded [] with
      status := ⟨false, true, false, some .invalidChecksum, some .crcMismatch⟩ }) = some ([2#32], []) := by
  decide +kernel

/-- C3. -/
theorem test_reserved : shows (.cmd :: results) (run 0x80000001#32 (loaded [])) =
    some ([0x80000001#32, 0x3062#32, 0#32, 0#32, 0#32, 0#32, 0#32, 0#32, 0#32], []) := by decide +kernel

/-- S2. -/
theorem test_frame_encode :
    shows results (after (machine (({ loaded [2#8, 0#8, 1#8, 0xFF#8] with
      inputs := ⟨4#32, 1#16, 0#32, 0#8, 0#8, 0#8⟩ } : Engine).accept 1#32) (.perform 0))) =
    some ([2#32, 11#32, 0#32, 1#32, 0#32, 0#32, 0#32, 0x7318A997#32],
      [0x00#8, 0x01#8, 0x00#8, 0x03#8, 0x02#8, 0x01#8, 0xFF#8, 0x97#8, 0xA9#8, 0x18#8, 0x73#8]) := by
  decide +kernel

/-- FE11: the extent is checked before the range. -/
theorem test_frame_encode_extent_first :
    shows results (run 1#32 (loaded [2#8, 0xFF#8, 0xFF#8, 1#8, 2#8])) =
      some ([0x2152#32, 0#32, 0#32, 0#32, 0#32, 0#32, 0#32, 0#32], []) := by decide +kernel

/-- FD16, the source's example S3. -/
theorem test_frame_decode :
    shows results (run 2#32 (loaded [0x00#8, 0x02#8, 0x00#8, 0x08#8, 0x03#8, 0x01#8, 0xFF#8, 0x04#8, 0x03#8, 0xAA#8,
      0xBB#8, 0xCC#8, 0x5D#8, 0x52#8, 0x64#8, 0xF2#8])) =
    some ([2#32, 10#32, 2#32, 2#32, 0#32, 0#32, 0#32, 0xF264525D#32],
      [0x03#8, 0x00#8, 0x01#8, 0xFF#8, 0x04#8, 0x00#8, 0x03#8, 0xAA#8, 0xBB#8, 0xCC#8]) := by decide +kernel

/-- FD10: a two-byte length field that ends in the trailer. -/
theorem test_frame_decode_overrun :
    shows results (run 2#32 (loaded [0x00#8, 0x01#8, 0x00#8, 0x02#8, 0x05#8, 0x80#8, 0x18#8, 0x2B#8, 0xE9#8,
      0x1F#8])) =
    some ([0x412#32, 0#32, 0#32, 0#32, 0#32, 0#32, 0#32, 0x1FE92B18#32], []) := by decide +kernel

/-- LE8. -/
theorem test_len_encode : shows results (run 3#32 (window 555#32 0#8 0#8 2#8)) =
    some ([2#32, 0#32, 0#32, 0#32, 0#32, 0x4AB#32, 2#32, 0#32], []) := by decide +kernel

/-- LE18: the window before the value. -/
theorem test_len_encode_window_first : shows results (run 3#32 (window 40000#32 0#8 0#8 1#8)) =
    some ([0x1842#32, 0#32, 0#32, 0#32, 0#32, 0#32, 0#32, 0#32], []) := by decide +kernel

/-- LD7. -/
theorem test_len_decode : shows results (run 4#32 (window 0#32 0xAB#8 0x04#8 2#8)) =
    some ([2#32, 0#32, 0#32, 0#32, 555#32, 0#32, 2#32, 0#32], []) := by decide +kernel

/-- LD3: the second byte is not used. -/
theorem test_len_decode_one_byte : shows results (run 4#32 (window 0#32 0x7F#8 0xFF#8 2#8)) =
    some ([2#32, 0#32, 0#32, 0#32, 127#32, 0#32, 1#32, 0#32], []) := by decide +kernel

/-- CG9. -/
theorem test_crc32_gen :
    shows results (run 5#32 (loaded [0x31#8, 0x32#8, 0x33#8, 0x34#8, 0x35#8, 0x36#8, 0x37#8, 0x38#8, 0x39#8])) =
      some ([2#32, 0#32, 0#32, 0#32, 0#32, 0#32, 0#32, 0xCBF43926#32], []) := by decide +kernel

/-- C11: IBUF never written; the command stays pending. -/
theorem test_crc32_gen_unwritten :
    shows [.status] (run 5#32 { loaded [] with inputs := ⟨4#32, 0#16, 0#32, 0#8, 0#8, 0#8⟩ }) =
      some ([1#32], []) := by decide +kernel

/-- CC6. -/
theorem test_crc32_check_mismatch :
    shows results (run 6#32 (loaded [0#8, 0#8, 0#8, 0#8, 0x1C#8, 0xDF#8, 0x44#8, 0x20#8])) =
      some ([0x222#32, 0#32, 0#32, 0#32, 0#32, 0#32, 0#32, 0x2144DF1C#32], []) := by decide +kernel

/-- CC3: the empty message. -/
theorem test_crc32_check : shows results (run 6#32 (loaded [0#8, 0#8, 0#8, 0#8])) =
    some ([2#32, 0#32, 0#32, 0#32, 0#32, 0#32, 0#32, 0#32], []) := by decide +kernel

/-- C5: a second command while busy. -/
theorem test_rejected :
    shows [.status, .cmd]
      (after (machine ((loaded []).accept 1#32) (.host 0 ⟨0x004#19, .write (.word 0#32)⟩))) =
      some ([5#32, 1#32], []) := by decide +kernel

/-- C6. -/
theorem test_status_write :
    shows [.status] (after (machine { loaded [] with status := ⟨false, true, true, none, none⟩ }
      (.host 0 ⟨0x008#19, .write (.word 4#32)⟩))) = some ([2#32], []) := by decide +kernel

/-- R46: a 32-bit read of a frame `00 01 00 03`. -/
theorem test_lanes : reply (loaded [0x00#8, 0x01#8, 0x00#8, 0x03#8]) 0x20000#19 (.read .four) =
    some (.data 0x03000100#32) := by decide +kernel

/-- R53, P1: a read past the output. -/
theorem test_read_no_value : reply (loaded []) 0x4000B#19 (.read .one) = some .noValue := by decide +kernel

/-- R47, R48, R52, R44: each kind of bus error. -/
theorem test_bus_errors :
    reply (loaded []) 0x00008#19 (.read .two) = some .busError ∧
    reply (loaded [0#8, 0#8]) 0x20001#19 (.read .two) = some .busError ∧
    reply (loaded []) 0x40000#19 (.write (.byte 1#8)) = some .busError ∧
    reply (loaded []) 0x00100#19 (.read .four) = some .busError ∧
    reply (loaded []) 0x7FFFC#19 (.read .four) = some .busError := by decide +kernel

/-- The fetch word runs as the first command after reset, whatever the number of engines. -/
theorem test_fetch_word : shows [.cmd, .status] (after (State.reset.withFetchWord 32 6)) =
    some ([6#32, 0x512#32], []) := by decide +kernel

/-! ## Witnesses: inputs that meet the hypotheses of each statement, at the boundaries of its clauses -/

theorem loaded_input (bytes : List Byte) (h : bytes.length ≤ 131072) (draw : Nat) :
    inputIs (loaded bytes) draw bytes := by
  refine ⟨?_, h, fun i _ => ?_⟩
  · simp only [loaded, Engine.seenRegs, seen, Engine.reset, Hazard.clear, Bool.false_eq_true, if_false,
      BitVec.toNat_ofNat]
    omega
  · have hibuf : (loaded bytes).seenIbuf draw = Memory.ofBytes 0 bytes := by
      simp [loaded, Engine.seenIbuf, seen, Engine.reset, Hazard.clear]
    have := Memory.read_ofBytes 0 bytes i
    rwa [Nat.zero_add, ← hibuf] at this

/-- A machine whose active engine is engine 0 and holds `bytes`. -/
def holding (bytes : List Byte) : State := machine (loaded bytes) (.perform 0)

theorem holding_active (bytes : List Byte) :
    (holding bytes).engines[(holding bytes).active]? = some (loaded bytes) := rfl

theorem holding_input (bytes : List Byte) (h : bytes.length ≤ 131072) :
    inputIs (loaded bytes) (holding bytes).draws bytes := loaded_input bytes h _

/-- A busy engine with a command word. -/
def pending (w : Word) : Engine := (loaded []).accept w

/-- A busy engine that a model fault stopped. -/
def halted : Engine := { pending 5#32 with stuck := true }

/-- An engine whose IN_LEN is n and whose IBUF holds nothing. -/
def claiming (n : Word) : Engine := { loaded [] with inputs := ⟨n, 0#16, 0#32, 0#8, 0#8, 0#8⟩ }

theorem witness_StepRunsTheHeldCommand :
    (machine (pending 3#32) (.perform 0)).schedule = [.perform 0] ∧
    (machine (pending 3#32) (.perform 0)).engines[0]? = some (pending 3#32) ∧
    (pending 3#32).status.busy = true ∧ (pending 3#32).stuck = false ∧
    decode (pending 3#32).cmd = .ok .lenEncode := by decide +kernel

/-- A machine of one engine with no turn to come. -/
def unscheduled (e : Engine) : State := { machine e .reset with schedule := [] }

theorem witness_StepAfterTheLastTurn :
    ((unscheduled (pending 3#32)).schedule = [] ∧
      (unscheduled (pending 3#32)).engines[0]? = some (pending 3#32) ∧ (pending 3#32).status.busy = true ∧
      (pending 3#32).stuck = false ∧ decode (pending 3#32).cmd = .ok .lenEncode) ∧
    (unscheduled (loaded [])).schedule = [] ∧ (unscheduled (loaded [])).enabledAt 0 = false := by decide +kernel

/-- The machine of one engine whose NOP has completed. -/
def finished : State :=
  { unscheduled { pending 0#32 with status := ⟨false, true, false, none, none⟩ } with draws := 1 }

/-- A run: the NOP is pending, then it has completed. -/
def nopRun : Nat → State
  | 0 => unscheduled (pending 0#32)
  | _ + 1 => finished

theorem witness_EveryRunEndsItsCommands :
    Run nopRun ∧ (nopRun 0).engines[0]? = some (pending 0#32) ∧ (pending 0#32).enabled = true := by
  refine ⟨fun k => ?_, rfl, rfl⟩
  cases k <;> rfl

theorem witness_FairRunsEndTheirCommands :
    FairRun (fun _ => .perform 0) nopRun ∧ (nopRun 0).engines[0]? = some (pending 0#32) ∧
    (pending 0#32).enabled = true := by
  refine ⟨⟨fun k => ?_, fun n k => ⟨k, Nat.le_refl k, ?_⟩⟩, rfl, rfl⟩
  · cases k <;> rfl
  · cases n with
    | zero => exact .inl rfl
    | succ n => exact .inr (by cases k <;> rfl)

theorem witness_ReservedWordCompletesWithBadCommand :
    ∀ w ∈ [7#32, 0x80000001#32, 0xFFFFFFFF#32],
      (machine (pending w) (.perform 0)).engines[0]? = some (pending w) ∧ (pending w).status.busy = true ∧
      (pending w).stuck = false ∧ 7 ≤ (pending w).cmd.toNat := by
  simp only [List.mem_cons, List.not_mem_nil, or_false, forall_eq_or_imp, forall_eq]
  decide +kernel

theorem witness_EngineWithoutEnabledStepDoesNothing :
    (machine (loaded []) (.perform 0)).engines[0]? = some (loaded []) ∧ (loaded []).status.busy = false ∧
    (machine halted (.perform 0)).engines[0]? = some halted ∧ halted.stuck = true := by decide +kernel

theorem witness_EnabledEngineCompletesOrFaults :
    (machine (pending 0#32) (.perform 0)).schedule = [.perform 0] ∧
    (machine (pending 0#32) (.perform 0)).engines[0]? = some (pending 0#32) ∧
    (pending 0#32).status.busy = true ∧ (pending 0#32).stuck = false := by decide +kernel

theorem witness_CmdWriteWhileIdleAccepts :
    (machine (loaded []) (.host 0 ⟨0x004#19, .write (.word 7#32)⟩)).engines[0]? = some (loaded []) ∧
    (loaded []).status.busy = false := by decide +kernel

theorem witness_CmdWriteWhileBusyIsRejected :
    (machine (pending 1#32) (.host 0 ⟨0x004#19, .write (.word 0#32)⟩)).engines[0]? = some (pending 1#32) ∧
    (pending 1#32).status.busy = true := by decide +kernel

theorem witness_StatusWriteClearsBySetBits :
    (machine (loaded []) (.host 0 ⟨0x008#19, .write (.word 2#32)⟩)).engines[0]? = some (loaded []) ∧
    (2#32).getLsbD 1 = true ∧ (2#32).getLsbD 2 = false ∧ (4#32).getLsbD 1 = false ∧ (4#32).getLsbD 2 = true := by
  decide +kernel

/-- A completion, and a command that stays pending. -/
theorem witness_IrqFollowsDoneAndEnable :
    (∃ t e', exec .nop (machine (pending 0#32) .reset) = .next t ∧ t.engines[0]? = some e' ∧
      e'.status.busy = false) ∧
    (∃ t e', exec .crc32Gen (machine { pending 5#32 with inputs := ⟨4#32, 0#16, 0#32, 0#8, 0#8, 0#8⟩ } .reset) =
      .next t ∧ t.engines[0]? = some e' ∧ e'.status.busy = true) :=
  ⟨⟨_, _, rfl, rfl, rfl⟩, ⟨_, _, rfl, rfl, rfl⟩⟩

theorem witness_NopCompletesWithNoResult :
    (machine (pending 0#32) .reset).engines[(machine (pending 0#32) .reset).active]? = some (pending 0#32) := by decide +kernel

/-- A wrong window, and the values on both sides of each bound with the right one. -/
theorem witness_LenEncodeResult :
    ∀ c ∈ [(0, 1), (0, 2), (127, 2), (128, 2), (32767, 2), (32768, 2), (4294967295, 2), (127, 255)],
      ((machine (window (BitVec.ofNat 32 c.1) 0#8 0#8 (BitVec.ofNat 8 c.2)) .reset).engines[0]? =
        some (window (BitVec.ofNat 32 c.1) 0#8 0#8 (BitVec.ofNat 8 c.2))) ∧
      ((window (BitVec.ofNat 32 c.1) 0#8 0#8 (BitVec.ofNat 8 c.2)).seenRegs 0).lenIn.toNat = c.1 ∧
      ((window (BitVec.ofNat 32 c.1) 0#8 0#8 (BitVec.ofNat 8 c.2)).seenRegs 0).winSize.toNat = c.2 := by decide +kernel

/-- A wrong window, and the first byte on both sides of 128 with the right one. -/
theorem witness_LenDecodeResult :
    ∀ c ∈ [(0x00#8, 0x00#8, 1#8), (0x00#8, 0xEE#8, 2#8), (0x7F#8, 0xFF#8, 2#8), (0x80#8, 0x00#8, 2#8),
        (0xFF#8, 0xFF#8, 2#8)],
      ((machine (window 0#32 c.1 c.2.1 c.2.2) .reset).engines[0]? = some (window 0#32 c.1 c.2.1 c.2.2)) ∧
      ((window 0#32 c.1 c.2.1 c.2.2).seenRegs 0).winB0 = c.1 ∧
      ((window 0#32 c.1 c.2.1 c.2.2).seenRegs 0).winB1 = c.2.1 ∧
      ((window 0#32 c.1 c.2.1 c.2.2).seenRegs 0).winSize = c.2.2 := by
  simp only [List.mem_cons, List.not_mem_nil, or_false, forall_eq_or_imp, forall_eq]
  decide +kernel

theorem witness_LengthFieldRoundTrip : (0 : Nat) ≤ 32767 ∧ (127 : Nat) ≤ 32767 ∧ (32767 : Nat) ≤ 32767 := by decide +kernel

theorem witness_StatusOfEachCause : Status.reset.rejected = false := rfl

/-- The empty message, and one that fills IBUF; C9, an IN_LEN above it. -/
theorem witness_CrcGenResult :
    ((holding []).engines[(holding []).active]? = some (loaded []) ∧
      inputIs (loaded []) (holding []).draws []) ∧
    ((holding (zeros 131072)).engines[(holding (zeros 131072)).active]? = some (loaded (zeros 131072)) ∧
      inputIs (loaded (zeros 131072)) (holding (zeros 131072)).draws (zeros 131072)) ∧
    ((machine (claiming 131073#32) .reset).engines[0]? = some (claiming 131073#32) ∧
      131072 < ((claiming 131073#32).seenRegs 0).inLen.toNat) :=
  ⟨⟨rfl, holding_input _ (by decide +kernel)⟩, ⟨rfl, holding_input _ (by rw [zeros_length])⟩, rfl, by decide +kernel⟩

/-- The range clause is met as in `witness_CrcGenResult`. Three bytes; the empty message with its checksum; and CC6, a message with a wrong one. -/
theorem witness_CrcCheckResult :
    (inputIs (loaded [0#8, 0#8, 0#8]) (holding [0#8, 0#8, 0#8]).draws [0#8, 0#8, 0#8] ∧
      [0#8, 0#8, (0#8 : Byte)].length < 4) ∧
    (inputIs (loaded ([] ++ packLe32 0#32)) (holding ([] ++ packLe32 0#32)).draws ([] ++ packLe32 0#32) ∧
      0#32 = crc32 []) ∧
    (inputIs (loaded ([0#8] ++ packLe32 0#32)) (holding ([0#8] ++ packLe32 0#32)).draws ([0#8] ++ packLe32 0#32) ∧
      0#32 ≠ crc32 [0#8]) :=
  ⟨⟨holding_input _ (by decide +kernel), by decide +kernel⟩, ⟨holding_input _ (by decide +kernel), by decide +kernel⟩,
    holding_input _ (by decide +kernel), by decide +kernel⟩

/-- The packet with no blocks, and one block on each side of the two forms of the length field. -/
theorem witness_FrameEncodeOfPacketThatFits :
    ∀ blocks ∈ [[], [⟨2#8, [0xFF#8]⟩], [⟨9#8, zeros 127⟩], [⟨9#8, zeros 128⟩, ⟨5#8, []⟩]],
      fits blocks ∧ (holding (image blocks)).engines[(holding (image blocks)).active]? =
        some (loaded (image blocks)) ∧ inputIs (loaded (image blocks)) (holding (image blocks)).draws (image blocks) := by
  intro blocks h
  have key : ∀ blocks ∈ [[], [⟨2#8, [0xFF#8]⟩], [⟨9#8, zeros 127⟩], [⟨9#8, zeros 128⟩, ⟨5#8, []⟩]],
      (∀ b ∈ blocks, b.payload.length ≤ 32767) ∧ (wireSection (encoded blocks)).length ≤ 65535 ∧
        (image blocks).length ≤ 131072 := by decide +kernel
  exact ⟨⟨(key blocks h).1, (key blocks h).2.1⟩, rfl, holding_input _ (key blocks h).2.2⟩

/-- FE8: a header short by one byte after a whole record; FE9; and FE10. -/
theorem witness_FrameEncodeImageErrors :
    (inputIs (loaded (image [⟨1#8, []⟩] ++ [7#8])) (holding (image [⟨1#8, []⟩] ++ [7#8])).draws
      (image [⟨1#8, []⟩] ++ [7#8]) ∧ [(7#8 : Byte)].length = 1) ∧
    (inputIs (loaded (image [] ++ 2#8 :: (packBe16 5#16 ++ [0xAA#8])))
      (holding (image [] ++ 2#8 :: (packBe16 5#16 ++ [0xAA#8]))).draws
      (image [] ++ 2#8 :: (packBe16 5#16 ++ [0xAA#8])) ∧ [(0xAA#8 : Byte)].length < (5#16).toNat) ∧
    (inputIs (loaded (image [] ++ 2#8 :: (packBe16 0x8000#16 ++ zeros 32768)))
      (holding (image [] ++ 2#8 :: (packBe16 0x8000#16 ++ zeros 32768))).draws
      (image [] ++ 2#8 :: (packBe16 0x8000#16 ++ zeros 32768)) ∧ (0x8000#16).toNat ≤ (zeros 32768).length ∧
      32767 < (0x8000#16).toNat) := by
  refine ⟨⟨holding_input _ (by decide +kernel), rfl⟩, ⟨holding_input _ (by decide +kernel), by decide +kernel⟩, holding_input _ ?_, ?_, by decide +kernel⟩
  · simp only [image, List.flatMap_nil, List.nil_append, List.length_cons, List.length_append, packBe16_length,
      zeros_length]
    decide +kernel
  · rw [zeros_length]; decide +kernel

/-- FE12: two payloads of 32767 bytes. -/
theorem witness_FrameEncodeSectionTooLong :
    (∀ b ∈ [(⟨1#8, zeros 32767⟩ : Block), ⟨1#8, zeros 32767⟩], b.payload.length ≤ 32767) ∧
    (holding (image [⟨1#8, zeros 32767⟩, ⟨1#8, zeros 32767⟩])).engines[0]? =
      some (loaded (image [⟨1#8, zeros 32767⟩, ⟨1#8, zeros 32767⟩])) ∧
    inputIs (loaded (image [⟨1#8, zeros 32767⟩, ⟨1#8, zeros 32767⟩]))
      (holding (image [⟨1#8, zeros 32767⟩, ⟨1#8, zeros 32767⟩])).draws
      (image [⟨1#8, zeros 32767⟩, ⟨1#8, zeros 32767⟩]) ∧
    65535 < (wireSection (encoded [⟨1#8, zeros 32767⟩, ⟨1#8, zeros 32767⟩])).length := by
  refine ⟨?_, rfl, holding_input _ ?_, ?_⟩
  · simp only [List.mem_cons, List.not_mem_nil, or_false, forall_eq_or_imp, forall_eq, zeros_length]
    decide +kernel
  · simp only [image, List.flatMap_cons, List.flatMap_nil, Block.record, List.length_cons, List.length_append,
      packBe16_length, zeros_length, List.length_nil]
    decide +kernel
  · simp only [wireSection, encoded, List.map_cons, List.map_nil, List.flatMap_cons, List.flatMap_nil,
      WireBlock.bytes, wireField, List.length_cons, List.length_append, zeros_length, List.length_nil]
    decide +kernel

/-- FD2; FD3, a wrong checksum; FD5, a wrong section length. -/
theorem witness_FrameDecodeFastFailures :
    (inputIs (loaded (zeros 7)) (holding (zeros 7)).draws (zeros 7) ∧ (zeros 7).length < 8) ∧
    (inputIs (loaded (zeros 4 ++ packLe32 0x2044DF1C#32)) (holding (zeros 4 ++ packLe32 0x2044DF1C#32)).draws
      (zeros 4 ++ packLe32 0x2044DF1C#32) ∧ 4 ≤ (zeros 4).length ∧ 0x2044DF1C#32 ≠ crc32 (zeros 4)) ∧
    (inputIs (loaded ([0#8, 0#8, 0#8, 1#8] ++ packLe32 0x5643EF8A#32))
      (holding ([0#8, 0#8, 0#8, 1#8] ++ packLe32 0x5643EF8A#32)).draws
      ([0#8, 0#8, 0#8, 1#8] ++ packLe32 0x5643EF8A#32) ∧ 0x5643EF8A#32 = crc32 [0#8, 0#8, 0#8, 1#8] ∧
      [0#8, 0#8, 0#8, 1#8] = packBe16 0#16 ++ packBe16 1#16 ++ [] ∧ (1#16).toNat ≠ ([] : List Byte).length) :=
  ⟨⟨holding_input _ (by decide +kernel), by decide +kernel⟩,
    ⟨holding_input _ (by decide +kernel), by decide +kernel, by decide +kernel⟩,
    holding_input _ (by decide +kernel), by decide +kernel, by decide +kernel, by decide +kernel⟩

/-- The empty section, the field `80 00` (FD11), and a payload of 128 bytes. -/
theorem witness_FrameDecodeOfBlocks :
    ∀ ws ∈ [[], [⟨true, ⟨5#8, []⟩⟩], [⟨true, ⟨6#8, zeros 128⟩⟩, ⟨false, ⟨7#8, zeros 127⟩⟩]],
      (∀ w ∈ ws, w.legal) ∧ (wireSection ws).length ≤ 65535 ∧
      inputIs (loaded (wireFrame 1#16 (wireSection ws))) (holding (wireFrame 1#16 (wireSection ws))).draws
        (wireFrame 1#16 (wireSection ws)) := by
  intro ws h
  have key : ∀ ws ∈ [[], [⟨true, ⟨5#8, []⟩⟩], [⟨true, ⟨6#8, zeros 128⟩⟩, ⟨false, ⟨7#8, zeros 127⟩⟩]],
      (∀ w ∈ ws, w.block.payload.length ≤ if w.long then 32767 else 127) ∧ (wireSection ws).length ≤ 65535 := by
    decide +kernel
  refine ⟨(key ws h).1, (key ws h).2, holding_input _ ?_⟩
  have := (key ws h).2
  simp only [wireFrame, wireBody, List.length_append, packBe16_length, packLe32_length]
  omega

/-- FD7, FD10 and FD9. -/
theorem witness_FrameDecodeBlockOverrun :
    (∀ bad ∈ [[7#8], [5#8, 0x80#8], [1#8, 5#8, 0xAA#8]],
      (wireSection [] ++ bad).length ≤ 65535 ∧
      inputIs (loaded (wireFrame 1#16 (wireSection [] ++ bad))) (holding (wireFrame 1#16 (wireSection [] ++ bad))).draws
        (wireFrame 1#16 (wireSection [] ++ bad))) ∧
    128 ≤ (0x80#8).toNat ∧
    [1#8, 5#8, 0xAA#8] = 1#8 :: (wireField false 5 ++ [0xAA#8]) ∧ [(0xAA#8 : Byte)].length < 5 := by
  refine ⟨?_, by decide +kernel, by decide +kernel, by decide +kernel⟩
  intro bad h
  have key : ∀ bad ∈ [[7#8], [5#8, 0x80#8], [1#8, 5#8, 0xAA#8]], (wireSection [] ++ bad).length ≤ 65535 := by decide +kernel
  refine ⟨key bad h, holding_input _ ?_⟩
  have := key bad h
  simp only [wireFrame, wireBody, List.length_append (bs := packLe32 _), List.length_append (bs := wireSection [] ++ bad),
    List.length_append (as := packBe16 _), packBe16_length, packLe32_length]
  omega

/-- The second engine's input is the frame that the first engine wrote (S1). -/
theorem witness_FrameRoundTrip :
    fits [] ∧ inputIs (loaded (image [])) (holding (image [])).draws (image []) ∧
    ∃ t e', exec .frameEncode (holding (image [])) = .next t ∧ t.engines[0]? = some e' ∧
      ((loaded [0#8, 0#8, 0#8, 0#8, 0x1C#8, 0xDF#8, 0x44#8, 0x21#8]).seenRegs 0).inLen = e'.results.outLen ∧
      ∀ i, i < e'.results.outLen.toNat →
        Memory.read ((loaded [0#8, 0#8, 0#8, 0#8, 0x1C#8, 0xDF#8, 0x44#8, 0x21#8]).seenIbuf 0) i =
          Memory.read e'.obuf i := by
  refine ⟨⟨by decide +kernel, by decide +kernel⟩, holding_input _ (by decide +kernel), _, _, rfl, rfl, by decide +kernel, ?_⟩
  decide +kernel

/-- FD11, whose field is not canonical, and a packet whose fields are. -/
theorem witness_ReencodeGivesTheFrameWhenCanonical :
    ∀ ws ∈ [[⟨true, ⟨5#8, []⟩⟩], [⟨false, ⟨7#8, zeros 127⟩⟩, ⟨true, ⟨7#8, zeros 128⟩⟩]],
      (∀ w ∈ ws, w.legal) ∧ (wireSection ws).length ≤ 65535 ∧
      inputIs (loaded (image (ws.map WireBlock.block))) (holding (image (ws.map WireBlock.block))).draws
        (image (ws.map WireBlock.block)) := by
  intro ws h
  have key : ∀ ws ∈ [[⟨true, ⟨5#8, []⟩⟩], [⟨false, ⟨7#8, zeros 127⟩⟩, ⟨true, ⟨7#8, zeros 128⟩⟩]],
      (∀ w ∈ ws, w.block.payload.length ≤ if w.long then 32767 else 127) ∧ (wireSection ws).length ≤ 65535 ∧
        (image (ws.map WireBlock.block)).length ≤ 131072 := by decide +kernel
  exact ⟨(key ws h).1, (key ws h).2.1, holding_input _ (key ws h).2.2⟩

/-- The first and the last bit of S1's frame. -/
theorem witness_SingleBitFlipIsDetected :
    crcOk [0#8, 0#8, 0#8, 0#8, 0x1C#8, 0xDF#8, 0x44#8, 0x21#8] = true ∧
    ∀ j ∈ [0, 63], j < 8 * [0#8, 0#8, 0#8, 0#8, 0x1C#8, 0xDF#8, 0x44#8, (0x21#8 : Byte)].length ∧
      inputIs (loaded (flipBit [0#8, 0#8, 0#8, 0#8, 0x1C#8, 0xDF#8, 0x44#8, 0x21#8] j))
        (holding (flipBit [0#8, 0#8, 0#8, 0#8, 0x1C#8, 0xDF#8, 0x44#8, 0x21#8] j)).draws
        (flipBit [0#8, 0#8, 0#8, 0#8, 0x1C#8, 0xDF#8, 0x44#8, 0x21#8] j) := by
  refine ⟨by decide +kernel, fun j hj => ⟨?_, holding_input _ ?_⟩⟩
  · revert j; decide +kernel
  · simp [flipBit]

/-- C9: one byte more than IBUF. -/
theorem witness_InLenRangeComesFirst :
    readsIbuf .crc32Gen ∧ (machine (claiming 131073#32) .reset).engines[0]? = some (claiming 131073#32) ∧
    131072 < ((claiming 131073#32).seenRegs 0).inLen.toNat := ⟨by simp [readsIbuf], rfl, by decide +kernel⟩

/-- C11, and the last cell of IBUF. -/
theorem witness_UnwrittenInputStopsTheCommand :
    readsIbuf .frameDecode ∧ (machine (claiming 131072#32) .reset).engines[0]? = some (claiming 131072#32) ∧
    ((claiming 131072#32).seenRegs 0).inLen.toNat ≤ 131072 ∧
    (∀ k ∈ [0, 131071], k < ((claiming 131072#32).seenRegs 0).inLen.toNat ∧
      Memory.read ((claiming 131072#32).seenIbuf 0) k = none) := ⟨by simp [readsIbuf], rfl, by decide +kernel, by decide +kernel⟩

theorem witness_CommandFrame :
    (machine (pending 5#32) .reset).engines[0]? = some (pending 5#32) ∧
    ∃ t, exec .crc32Gen (machine (pending 5#32) .reset) = .next t := ⟨rfl, _, rfl⟩

/-- A success with output, and an error. -/
theorem witness_OutputBufferAfterCompletion :
    (∃ t e', (pending 1#32).status.busy = true ∧ exec .frameEncode (machine (pending 1#32) .reset) = .next t ∧
      t.engines[0]? = some e' ∧ e'.status.busy = false) ∧
    (∃ t e', exec .frameDecode (machine (pending 2#32) .reset) = .next t ∧ t.engines[0]? = some e' ∧
      e'.status.busy = false ∧ e'.status.err ≠ none) :=
  ⟨⟨_, _, rfl, rfl, rfl, rfl⟩, ⟨_, _, rfl, rfl, rfl, by decide +kernel⟩⟩

theorem witness_ResultDependsOnOperandsOnly :
    (machine (pending 1#32) .reset).engines[0]? = some (pending 1#32) ∧
    (machine (loaded []) .script).engines[0]? = some (loaded []) ∧ sameOperands (pending 1#32) (loaded []) ∧
    pending 1#32 ≠ loaded [] ∧ (machine (pending 1#32) .reset).draws = (machine (loaded []) .script).draws :=
  ⟨rfl, rfl, ⟨rfl, rfl, rfl⟩, by decide +kernel, rfl⟩

/-- An engine with no input written while busy, and a cell beside one that was. -/
theorem witness_CommandReadsWhatWasLeft :
    (pending 1#32).hazard = Hazard.clear ∧ 5 ∉ ((pending 1#32).writeIbuf 4 [0#8]).hazard.cells := by decide +kernel

/-- Each clause of R133 at its boundary, and accesses beside it that end in no bus error. -/
theorem witness_BusErrorsChangeNothing :
    (∀ t ∈ [(⟨0x00001#19, .read .two⟩ : Transaction), ⟨0x00002#19, .write (.word 0#32)⟩, ⟨0x000FC#19, .read .two⟩,
        ⟨0x00100#19, .read .four⟩, ⟨0x1FFFF#19, .read .one⟩, ⟨0x60000#19, .read .one⟩, ⟨0x7FFFF#19, .read .one⟩,
        ⟨0x40000#19, .write (.byte 0#8)⟩, ⟨0x5FFFC#19, .write (.word 0#32)⟩], busErrorAccess t) ∧
    (∀ t ∈ [(⟨0x000FC#19, .read .four⟩ : Transaction), ⟨0x20000#19, .write (.byte 0#8)⟩,
        ⟨0x3FFFC#19, .write (.word 0#32)⟩, ⟨0x40000#19, .read .four⟩, ⟨0x5FFFF#19, .read .one⟩],
      ¬ busErrorAccess t) ∧
    (machine (loaded []) (.host 0 ⟨0x20000#19, .read .one⟩)).engines[0]? = some (loaded []) := by
  refine ⟨?_, ?_, rfl⟩ <;>
    simp [busErrorAccess, AccessSize.bytes, Access.size, WriteData.size]

theorem witness_IbufWriteStoresItsLanes :
    (∀ c ∈ [((0x20000#19 : BitVec 19), WriteData.byte 1#8), (0x3FFFE#19, .half 2#16), (0x3FFFC#19, .word 3#32)],
      c.1.toNat % c.2.size.bytes = 0 ∧ 0x20000 ≤ c.1.toNat ∧ c.1.toNat < 0x40000) ∧
    (machine (loaded []) (.host 0 ⟨0x20000#19, .write (.byte 1#8)⟩)).engines[0]? = some (loaded []) ∧
    (loaded []).status.busy = false := by decide +kernel

/-- The first and the last word of IBUF and of OBUF, with values and without. -/
theorem witness_BufferReadGivesLanesOrFaults :
    (∀ off ∈ [(0x20000#19 : BitVec 19), 0x3FFFC#19], off.toNat % 4 = 0 ∧ 0x20000 ≤ off.toNat ∧ off.toNat < 0x40000) ∧
    (∀ off ∈ [(0x40000#19 : BitVec 19), 0x5FFFC#19], off.toNat % 4 = 0 ∧ 0x40000 ≤ off.toNat ∧ off.toNat < 0x60000) ∧
    (loaded []).status.busy = false ∧
    (∀ j, j < 4 → Memory.read (loaded [1#8, 2#8, 3#8, 4#8]).ibuf (0 + j) = [1#8, 2#8, 3#8, (4#8 : Byte)][j]?) ∧
    Memory.read (loaded []).obuf 0 = none := by
  simp only [List.mem_cons, List.not_mem_nil, or_false, forall_eq_or_imp, forall_eq]
  decide +kernel

theorem witness_ReadsWhileBusy :
    (pending 1#32).status.busy = true ∧
    (machine (pending 1#32) (.host 0 ⟨0x020#19, .read .four⟩)).engines[0]? = some (pending 1#32) ∧
    (∀ off ∈ [(0x020#19 : BitVec 19), 0x038#19], off.toNat % 4 = 0 ∧ 0x20 ≤ off.toNat ∧ off.toNat < 0x3C) ∧
    (∀ off ∈ [(0x40000#19 : BitVec 19), 0x5FFFF#19], off.toNat % 1 = 0 ∧ 0x40000 ≤ off.toNat ∧ off.toNat < 0x60000) ∧
    (∀ off ∈ [(0x000#19 : BitVec 19), 0x01C#19], off.toNat % 4 = 0 ∧ off.toNat < 0x20) ∧
    (∀ off ∈ [(0x03C#19 : BitVec 19), 0x0FC#19], off.toNat % 4 = 0 ∧ 0x3C ≤ off.toNat ∧ off.toNat < 0x100) := by
  simp only [List.mem_cons, List.not_mem_nil, or_false, forall_eq_or_imp, forall_eq]
  decide +kernel

theorem witness_RegisterReadsWhileIdle :
    (machine (loaded []) (.host 0 ⟨0x038#19, .read .four⟩)).engines[0]? = some (loaded []) ∧
    (loaded []).status.busy = false ∧
    (∀ off ∈ [(0x000#19 : BitVec 19), 0x020#19, 0x038#19, 0x03C#19, 0x0FC#19],
      off.toNat % 4 = 0 ∧ off.toNat < 0x100) := by
  simp only [List.mem_cons, List.not_mem_nil, or_false, forall_eq_or_imp, forall_eq]
  decide +kernel

theorem witness_InputRegisterWriteAndReadBack :
    ∀ off ∈ [(0x0000C#19 : BitVec 19), 0x00010#19, 0x00014#19, 0x00018#19, 0x0001C#19],
      (machine (loaded []) (.host 0 ⟨off, .write (.word 0xFFFFFFFF#32)⟩)).engines[0]? = some (loaded []) ∧
      (loaded []).status.busy = false := by
  simp only [List.mem_cons, List.not_mem_nil, or_false, forall_eq_or_imp, forall_eq]
  decide +kernel

theorem witness_ReadOnlyRegistersIgnoreWrites :
    (∀ off ∈ [(0x000#19 : BitVec 19), 0x020#19, 0x038#19, 0x03C#19, 0x0FC#19],
      off.toNat % 4 = 0 ∧ (off.toNat = 0 ∨ (0x20 ≤ off.toNat ∧ off.toNat < 0x100))) ∧
    (machine (loaded []) (.host 0 ⟨0x000#19, .write (.word 1#32)⟩)).engines[0]? = some (loaded []) := by
  simp only [List.mem_cons, List.not_mem_nil, or_false, forall_eq_or_imp, forall_eq]
  decide +kernel

theorem witness_ReadsHaveNoSideEffect :
    (machine (loaded []) (.host 0 ⟨0x008#19, .read .four⟩)).schedule = [.host 0 ⟨0x008#19, .read .four⟩] ∧
    (machine (loaded []) (.host 0 ⟨0x008#19, .read .four⟩)).engines[0]? = some (loaded []) := by decide +kernel

theorem witness_InputWritesWhileBusyAreHazards :
    (pending 1#32).status.busy = true ∧
    (machine (pending 1#32) (.host 0 ⟨0x010#19, .write (.word 4#32)⟩)).engines[0]? = some (pending 1#32) ∧
    (∀ off ∈ [(0x010#19 : BitVec 19), 0x01C#19], off.toNat % 4 = 0 ∧ 0x10 ≤ off.toNat ∧ off.toNat < 0x20) ∧
    (∀ off ∈ [(0x20000#19 : BitVec 19), 0x3FFFF#19], off.toNat % 1 = 0 ∧ 0x20000 ≤ off.toNat ∧ off.toNat < 0x40000) ∧
    (∀ off ∈ [(0x008#19 : BitVec 19), 0x00C#19], off.toNat % 4 = 0) := by
  simp only [List.mem_cons, List.not_mem_nil, or_false, forall_eq_or_imp, forall_eq]
  decide +kernel

theorem witness_HostAccessesKeepResultsAndOutput :
    (machine (loaded []) (.host 0 ⟨0x020#19, .write (.word 1#32)⟩)).engines[0]? = some (loaded []) ∧
    ∃ t, step (machine (loaded []) (.host 0 ⟨0x020#19, .write (.word 1#32)⟩)) = .next t := ⟨rfl, _, rfl⟩

theorem witness_PlatformAddressReachesItsEngine :
    (machine (loaded []) .reset).engines[0]? = some (loaded []) := rfl

/-- A machine of one engine that runs a script. -/
def scripted (e : Engine) (sc : Script) : State := { machine e .script with script := sc }

theorem witness_ScriptLineIssuesItsTransaction :
    (scripted (loaded []) ⟨0, [⟨none, .write 0x004#19 (.word 0#32)⟩], 0, []⟩).script.lines[0]? =
      some ⟨none, .write 0x004#19 (.word 0#32)⟩ ∧
    (scripted (loaded []) ⟨0, [⟨none, .read .four 0x008#19 1⟩], 0, []⟩).script.lines[0]? =
      some ⟨none, .read .four 0x008#19 1⟩ ∧
    (scripted (loaded []) ⟨0, [⟨none, .read .four 0x008#19 1⟩], 0, []⟩).engines[0]? = some (loaded []) := by decide +kernel

/-- Both branches, back to the first line. -/
theorem witness_ScriptBranchTestsItsMask :
    ∀ st ∈ [Stmt.beq 1 2#32 0#32 3, Stmt.bne 1 2#32 0#32 3],
      (scripted (loaded []) ⟨0, [⟨some 3, .comment⟩, ⟨none, st⟩], 1, [(1, 2#32)]⟩).script.lines[1]? =
        some ⟨none, st⟩ ∧
      (scripted (loaded []) ⟨0, [⟨some 3, .comment⟩, ⟨none, st⟩], 1, [(1, 2#32)]⟩).script.lookup 1 = some 2#32 ∧
      [(⟨some 3, .comment⟩ : ScriptLine), ⟨none, st⟩].findIdx? (fun l => l.label == some 3) = some 0 := by decide +kernel

/-- A machine whose script is a pseudo-instruction, with a turn for each of its lines. -/
def pseudoScript (p : Pseudo) : State :=
  { scripted (loaded []) ⟨0, p.expand, 0, []⟩ with schedule := List.replicate p.expand.length .script }

/-- The three of one line; WAITDONE, whose label names its own line; LOADI of the last two cells of IBUF. -/
theorem witness_PseudoInstructionsDoWhatTheySay :
    ((Pseudo.cmd .crc32Check).expand = [⟨none, .write 0x004#19 (.word 6#32)⟩] ∧
      (Pseudo.setWin 2#8 0xAB#8 0x04#8).expand = [⟨none, .write 0x01C#19 (.word 0x204AB#32)⟩] ∧
      Pseudo.ack.expand = [⟨none, .write 0x008#19 (.word 6#32)⟩] ∧
      (pseudoScript .ack).script.lines[0]? = some ⟨none, .write 0x008#19 (.word 6#32)⟩ ∧
      (pseudoScript .ack).engines[0]? = some (loaded []) ∧ (loaded []).status.busy = false) ∧
    ((Pseudo.waitDone 1 7).expand = [⟨some 7, .read .four 0x008#19 1⟩, ⟨none, .beq 1 2#32 0#32 7⟩] ∧
      (pseudoScript (.waitDone 1 7)).schedule = [.script, .script] ∧
      (pseudoScript (.waitDone 1 7)).script.lines.findIdx? (fun l => l.label == some 7) = some 0) ∧
    ((pseudoScript (.loadI 131070 [1#8, 2#8])).schedule = [.script, .script] ∧ 131070 + 2 ≤ 131072 ∧
      (pseudoScript (.loadI 131070 [1#8, 2#8])).script.lines =
        [⟨none, .write 0x3FFFE#19 (.byte 1#8)⟩, ⟨none, .write 0x3FFFF#19 (.byte 2#8)⟩]) := by decide +kernel

theorem witness_ResetStepGivesResetValues : (machine (pending 1#32) .reset).schedule = [.reset] := rfl

/-- The state right after reset is legal and steps. -/
theorem witness_StepKeepsTheStateLegal :
    State.reset.Inv ∧ (∃ t, step State.reset = .next t) := by
  refine ⟨⟨by simp [State.reset, Config.numEngines], fun e he => ?_⟩, _, step_idle rfl fun e he => ?_⟩ <;>
    simp only [State.reset, List.mem_cons, List.mem_replicate] at he
  · have hr : Engine.reset.Inv := by
      constructor <;> simp [Engine.reset, Status.reset, ResultRegs.zero, Memory.wf]
    rcases he with rfl | ⟨-, rfl⟩ <;> exact hr
  · rcases he with rfl | ⟨-, rfl⟩ <;> rfl

theorem witness_ModelFaultsAreNeverCleared :
    ∃ t, step { machine (pending 1#32) .reset with faults := ⟨true, true⟩ } = .next t ∧ t.faults = ⟨true, true⟩ :=
  ⟨_, rfl, rfl⟩

theorem witness_TurnsOfExistingEnginesAnswerANextState :
    0 < (machine (pending 1#32) (.perform 0)).engines.length ∧
    (machine (pending 1#32) (.perform 0)).schedule = [.perform 0] := by decide +kernel

/-- Two busy engines. -/
def twoEngines (turns : List Turn) : State :=
  { State.reset with engines := [pending 0#32, pending 5#32], schedule := turns }

theorem witness_EnginesShareNoState :
    (twoEngines [.perform 0]).schedule = [.perform 0] ∧ (∃ t, step (twoEngines [.perform 0]) = .next t) ∧
    (∃ t, step (twoEngines [.host 0 ⟨0x004#19, .write (.word 0#32)⟩]) = .next t) := ⟨rfl, ⟨_, rfl⟩, ⟨_, rfl⟩⟩

theorem witness_PerformTurnsOfTwoEnginesCommute :
    (pending 0#32).hazard = Hazard.clear ∧ (pending 5#32).hazard = Hazard.clear ∧
    (∃ a a', step (twoEngines [.perform 0, .perform 1]) = .next a ∧ step a = .next a') ∧
    (∃ b b', step (twoEngines [.perform 1, .perform 0]) = .next b ∧ step b = .next b') :=
  ⟨rfl, rfl, ⟨_, _, rfl, rfl⟩, ⟨_, _, rfl, rfl⟩⟩

end Sys2Proof.Tests
end

section
/-! PROOFS. The legal states and the model fault set: what a host access, a perform step and a reset keep of them
(10_state R17 to R40), and with it what every step keeps. -/

namespace Sys2Proof.Machine

/-! ## Legal states -/

theorem Engine.reset_inv : Engine.reset.Inv := by
  constructor <;> simp [Engine.reset, Status.reset, ResultRegs.zero, Memory.wf]

/-- Legality speaks of the engines alone. -/
theorem State.Inv.of_engines {s t : State} (h : s.Inv) (ht : t.engines = s.engines) : t.Inv :=
  ⟨by rw [ht]; exact h.engine_count, by rw [ht]; exact h.engines_legal⟩

theorem State.Inv.of_set {s t : State} {n : Nat} {e : Engine} (h : s.Inv) (he : e.Inv)
    (ht : t.engines = s.engines.set n e) : t.Inv := by
  refine ⟨by rw [ht, List.length_set]; exact h.engine_count, fun a ha => ?_⟩
  rw [ht] at ha
  rcases List.mem_or_eq_of_mem_set ha with ha | rfl
  · exact h.engines_legal a ha
  · exact he

theorem State.Inv.engine {s : State} {n : Nat} {e : Engine} (h : s.Inv) (he : s.engines[n]? = some e) : e.Inv :=
  h.engines_legal e (List.mem_of_getElem? he)

theorem State.hostAccess_inv {s : State} {n : Nat} {e : Engine} (h : s.Inv) (he : s.engines[n]? = some e)
    (tr : Transaction) : (s.hostAccess n e tr).Inv := by
  rcases State.hostAccess_engines s n e tr with ht | ⟨r, w, ht⟩ | ⟨i, bytes, hb, ht⟩
  · exact h.of_engines ht
  · exact h.of_set (Engine.writeReg_inv (h.engine he) r w) ht
  · exact h.of_set (Engine.writeIbuf_inv (h.engine he) hb) ht

theorem State.concluded_inv {s : State} {e : Engine} (h : s.Inv) (he : s.engines[s.active]? = some e)
    (hen : e.enabled = true) {r : CommandResult} (hr : r.legal) : (s.concluded e r).Inv := by
  obtain ⟨hb, hs⟩ := (Engine.enabled_iff e).1 hen
  exact h.of_set (Engine.conclude_inv (h.engine he) hb hs hr) (State.concluded_engines s e r)

theorem State.resetStep_inv {s : State} (h : s.Inv) : s.resetStep.Inv := by
  refine ⟨by simpa using h.engine_count, fun e he => ?_⟩
  obtain ⟨-, -, rfl⟩ := List.mem_map.1 he
  exact Engine.reset_inv

/-! ## The model fault set -/

theorem FaultSet.subset_refl (f : FaultSet) : FaultSet.subset f f := ⟨id, id⟩

theorem FaultSet.subset_record (f : FaultSet) (x : Fault) : FaultSet.subset f (f.record x) := by
  cases x with
  | uninitRead => exact ⟨fun _ => rfl, id⟩
  | hostHazard => exact ⟨id, fun _ => rfl⟩

theorem State.concluded_faults_subset (s : State) (e : Engine) (r : CommandResult) :
    FaultSet.subset s.faults (s.concluded e r).faults := by
  rw [State.concluded_faults]
  split
  · exact FaultSet.subset_record _ _
  · exact FaultSet.subset_refl _

end Sys2Proof.Machine

namespace Sys2Proof.Proofs

open Sys2Proof.Machine

/-- Settles O55: each thing a step can do keeps the legal states. A host access rewrites one engine by a register or an
IBUF write, a perform step concludes with a legal result, and a reset gives reset engines. -/
theorem stepKeepsTheStateLegal : Obligations.StepKeepsTheStateLegal := by
  intro s t hs h
  have hpop : ({ s with schedule := s.schedule.tail } : State).Inv := hs.of_engines rfl
  rcases step_cases h with ⟨sc, rfl, -⟩ | ⟨n, e, tr, sc, -, he, rfl⟩ | ⟨n, e, r, he, hen, hr, rfl, -⟩ | ⟨-, rfl⟩
  · exact hs.of_engines rfl
  · exact (State.hostAccess_inv hpop he tr).of_engines rfl
  · exact State.concluded_inv (s := { s with schedule := s.schedule.tail, active := n }) (hs.of_engines rfl) he hen hr
  · exact State.resetStep_inv hpop

/-- Settles O56: a host access and a perform step only record faults, and a script line and a reset leave the set as it
is. -/
theorem modelFaultsAreNeverCleared : Obligations.ModelFaultsAreNeverCleared := by
  intro s t h
  rcases step_cases h with ⟨sc, rfl, -⟩ | ⟨n, e, tr, sc, -, -, rfl⟩ | ⟨n, e, r, -, -, -, rfl, -⟩ | ⟨-, rfl⟩
  · exact FaultSet.subset_refl _
  · obtain ⟨-, -, -, hf⟩ := State.hostAccess_frame { s with schedule := s.schedule.tail } n e tr
    exact hf
  · exact State.concluded_faults_subset { s with schedule := s.schedule.tail, active := n } e r
  · exact FaultSet.subset_refl _

end Sys2Proof.Proofs
end

section
/-! PROOFS. The register page: the words that pack several fields, what a 32-bit register access answers, and what a
register write leaves unchanged (10_state R14 to R31, R39). -/

namespace Sys2Proof.Machine

/-! ## Words packed from fields -/

/-- A field placed above the bits that hold a value adds its own value there. -/
theorem toNat_or_shiftLeft {x y : Word} {a b i : Nat} (hx : x.toNat = a) (hy : y.toNat = b) (ha : a < 2 ^ i)
    (hb : b * 2 ^ i < 2 ^ 32) : (x ||| y <<< i).toNat = a + b * 2 ^ i := by
  subst hx hy
  rw [BitVec.toNat_or, BitVec.toNat_shiftLeft, Nat.shiftLeft_eq, Nat.mod_eq_of_lt hb, ← Nat.shiftLeft_eq, Nat.or_comm,
    ← Nat.shiftLeft_add_eq_or_of_lt ha, Nat.add_comm]

@[simp] theorem flagBit_toNat (b : Bool) : (flagBit b).toNat = b.toNat := by cases b <;> rfl

/-- The STATUS word by the numbers of its fields (10_state R17). -/
theorem Status.word_toNat (st : Status) : st.word.toNat = st.busy.toNat + 2 * st.done.toNat +
    4 * st.rejected.toNat + 16 * st.errCode.toNat + 256 * st.causeCode.toNat := by
  have hb := st.busy.toNat_le
  have hd := st.done.toNat_le
  have hr := st.rejected.toNat_le
  have he := st.errCode.isLt
  have hc := st.causeCode.isLt
  have hdone := toNat_or_shiftLeft (i := 1) (flagBit_toNat st.busy) (flagBit_toNat st.done) (by omega) (by omega)
  have hrejected := toNat_or_shiftLeft (i := 2) hdone (flagBit_toNat st.rejected) (by omega) (by omega)
  have herr := toNat_or_shiftLeft (i := 4) hrejected
    (BitVec.toNat_setWidth_of_le (by decide : 4 ≤ 32)) (b := st.errCode.toNat) (by omega) (by omega)
  have hcause := toNat_or_shiftLeft (i := 8) herr
    (BitVec.toNat_setWidth_of_le (by decide : 8 ≤ 32)) (b := st.causeCode.toNat) (by omega) (by omega)
  rw [Status.word, hcause]
  omega

/-- Two byte fields in a word (10_state R28). -/
theorem twoBytes_toNat (b0 b1 : Byte) :
    (b0.setWidth 32 ||| b1.setWidth 32 <<< 8 : Word).toNat = b0.toNat + 256 * b1.toNat := by
  have h0 := b0.isLt
  have h1 := b1.isLt
  rw [toNat_or_shiftLeft (BitVec.toNat_setWidth_of_le (by decide)) (BitVec.toNat_setWidth_of_le (by decide))] <;> omega

/-- Three byte fields in a word (10_state R23). -/
theorem threeBytes_toNat (b0 b1 b2 : Byte) :
    (b0.setWidth 32 ||| b1.setWidth 32 <<< 8 ||| b2.setWidth 32 <<< 16 : Word).toNat =
      b0.toNat + 256 * b1.toNat + 65536 * b2.toNat := by
  have h0 := b0.isLt
  have h1 := b1.isLt
  have h2 := b2.isLt
  rw [toNat_or_shiftLeft (twoBytes_toNat b0 b1) (BitVec.toNat_setWidth_of_le (by decide))] <;> omega

/-! ## Which register is where (10_state R14) -/

/-- Every offset from 0x03C on is reserved (10_state R31). -/
theorem Reg.at_reserved {off : Nat} (h : 0x3C ≤ off) : Reg.at off = .reserved := by
  unfold Reg.at
  split
  case h_16 => rfl
  all_goals omega

/-- The offsets a host write does not change hold ID, a result register or nothing. -/
theorem Reg.at_readOnly {off : Nat} (h : Claims.readOnlyOffset off) :
    Reg.at off = .id ∨ (Reg.at off).isResult = true ∨ Reg.at off = .reserved := by
  rcases h with rfl | ⟨h1, -⟩
  · exact .inl rfl
  · right
    unfold Reg.at
    split
    case h_16 => exact .inr rfl
    case h_9 | h_10 | h_11 | h_12 | h_13 | h_14 | h_15 => exact .inl rfl
    all_goals omega

/-- The word of the register at an offset is what 10_state R14 says a read answers there. -/
theorem Engine.readReg_readsAs (e : Engine) (off : Nat) : Claims.readsAs e off (e.readReg (Reg.at off)) := by
  unfold Claims.readsAs
  refine ⟨?id, ?cmd, ?status, ?irqEn, ?inLen, ?typeIn, ?lenIn, ?lenWinIn, ?outLen, ?typeOut, ?blockCount, ?lenOut,
    ?lenWinOut, ?lenConsumed, ?crcOut, fun h => by rw [Reg.at_reserved h]; rfl⟩ <;> rintro rfl
  case status => exact e.status.word_toNat
  case irqEn => exact flagBit_toNat _
  case lenWinIn => exact threeBytes_toNat _ _ _
  case lenWinOut => exact twoBytes_toNat _ _
  case typeIn | typeOut | lenConsumed => exact BitVec.toNat_setWidth_of_le (by decide)
  case id | cmd | inLen | lenIn | outLen | blockCount | lenOut | crcOut => rfl

/-! ## Register accesses -/

/-- A 32-bit host read of the register page, outside the free values of R148: the register's word, and nothing else
changes (20_memory R51). -/
theorem step_readReg {s : State} {n : Nat} {off : BitVec 19} {rest : List Turn} {e : Engine}
    (hs : s.schedule = .host n ⟨off, .read .four⟩ :: rest) (he : s.engines[n]? = some e) (h1 : off.toNat % 4 = 0)
    (h2 : off.toNat < 0x100) (hb : (e.status.busy && (Reg.at off.toNat).isResult) = false) :
    step s = .next { Claims.without s rest with response := some (.data (e.readReg (Reg.at off.toNat))) } := by
  rw [step_host hs he, State.hostAccess_read (target_reg h1 h2), State.hostRead, hb]
  rfl

/-- A 32-bit host write to the register page, where it is no hazard (70_reset_and_hazards R147): one engine is
rewritten by the register write, and nothing else changes. -/
theorem step_writeReg {s : State} {n : Nat} {off : BitVec 19} {w : Word} {rest : List Turn} {e : Engine}
    (hs : s.schedule = .host n ⟨off, .write (.word w)⟩ :: rest) (he : s.engines[n]? = some e)
    (h1 : off.toNat % 4 = 0) (h2 : off.toNat < 0x100)
    (hb : (e.status.busy && (Reg.at off.toNat).isInput) = false) :
    step s = .next { Claims.without s rest with
      engines := s.engines.set n (e.writeReg (Reg.at off.toNat) w), response := some .written } := by
  rw [step_host hs he, State.hostAccess_writeReg h1 h2, hb]
  rfl

/-- ID, the result registers and the reserved offsets ignore a write, which is no hazard there (10_state R31). -/
theorem Engine.writeReg_readOnly (e : Engine) {r : Reg} (h : r = .id ∨ r.isResult = true ∨ r = .reserved) (w : Word) :
    r.isInput = false ∧ e.writeReg r w = e := by
  cases r with
  | id | outLen | typeOut | blockCount | lenOut | lenWinOut | lenConsumed | crcOut | reserved => exact ⟨rfl, rfl⟩
  | cmd | status | irqEn | inLen | typeIn | lenIn | lenWinIn => simp [Reg.isResult] at h

/-- Putting back the engine that is there changes nothing. -/
theorem State.set_same_engine {s : State} {n : Nat} {e : Engine} (he : s.engines[n]? = some e) :
    s.engines.set n e = s.engines := by
  obtain ⟨hlt, rfl⟩ := List.getElem?_eq_some_iff.1 he
  exact List.set_getElem_self hlt

/-! ## Writes to IRQ_EN and the input registers of an idle engine (10_state R19 to R23) -/

/-- An idle engine stores the input register and marks no hazard. -/
theorem Engine.writeReg_input {e : Engine} (hb : e.status.busy = false) {r : Reg} (hr : r.isInput = true) (w : Word) :
    e.writeReg r w = { e with inputs := e.inputs.store r w } := by
  cases r with
  | inLen | typeIn | lenIn | lenWinIn => simp only [Engine.writeReg, hb, Bool.false_eq_true, if_false]
  | id | cmd | status | irqEn | outLen | typeOut | blockCount | lenOut | lenWinOut | lenConsumed | crcOut
  | reserved => cases hr

/-- Storing one input register leaves every other register as it was. -/
theorem Engine.readReg_store_other (e : Engine) {r r' : Reg} (hne : r' ≠ r) (w : Word) :
    ({ e with inputs := e.inputs.store r w } : Engine).readReg r' = e.readReg r' := by
  cases r' with
  | id | cmd | status | irqEn | outLen | typeOut | blockCount | lenOut | lenWinOut | lenConsumed | crcOut
  | reserved => rfl
  | inLen | typeIn | lenIn | lenWinIn => cases r <;> simp_all [Engine.readReg, InputRegs.store]

/-- Setting DONE_IE leaves every register but IRQ_EN as it was. -/
theorem Engine.readReg_doneIe_other (e : Engine) {r : Reg} (hne : r ≠ .irqEn) (b : Bool) :
    ({ e with doneIe := b } : Engine).readReg r = e.readReg r := by
  cases r with
  | irqEn => exact absurd rfl hne
  | id | cmd | status | inLen | typeIn | lenIn | lenWinIn | outLen | typeOut | blockCount | lenOut | lenWinOut
  | lenConsumed | crcOut | reserved => rfl

/-- A write to IRQ_EN or an input register of an idle engine touches nothing but that register's fields. -/
theorem Engine.writeReg_stored {e : Engine} (hb : e.status.busy = false) {r : Reg}
    (hr : r = .irqEn ∨ r.isInput = true) (w : Word) :
    e.writeReg r w = { e with inputs := (e.writeReg r w).inputs, doneIe := (e.writeReg r w).doneIe } := by
  rcases hr with rfl | hr
  · rfl
  · rw [Engine.writeReg_input hb hr]

theorem Engine.readReg_writeReg_other {e : Engine} (hb : e.status.busy = false) {r r' : Reg}
    (hr : r = .irqEn ∨ r.isInput = true) (hne : r' ≠ r) (w : Word) :
    (e.writeReg r w).readReg r' = e.readReg r' := by
  rcases hr with rfl | hr
  · exact e.readReg_doneIe_other hne _
  · rw [Engine.writeReg_input hb hr, Engine.readReg_store_other e hne]

/-- IRQ_EN reads back bit 0 of the written word. -/
theorem Engine.readReg_writeReg_irqEn (e : Engine) (w : Word) :
    ((e.writeReg .irqEn w).readReg .irqEn).toNat = w.toNat % 2 := by
  have h : (w.getLsbD 0).toNat = w.toNat % 2 := by
    rw [BitVec.getLsbD, Nat.toNat_testBit, Nat.pow_zero, Nat.div_one]
  exact (flagBit_toNat _).trans h

/-- TYPE_IN reads back the low 16 bits of the written word. -/
theorem Engine.readReg_writeReg_typeIn (e : Engine) (w : Word) :
    ((e.writeReg .typeIn w).readReg .typeIn).toNat = w.toNat % 65536 := by
  have h : ((w.extractLsb' 0 16).setWidth 32 : Word).toNat = (w.extractLsb' 0 16).toNat :=
    BitVec.toNat_setWidth_of_le (by decide)
  exact h.trans (by rw [BitVec.extractLsb'_toNat, Nat.shiftRight_zero])

/-- LEN_WIN_IN reads back the low 24 bits of the written word. -/
theorem Engine.readReg_writeReg_lenWinIn (e : Engine) (w : Word) :
    ((e.writeReg .lenWinIn w).readReg .lenWinIn).toNat = w.toNat % 16777216 := by
  have h := threeBytes_toNat (w.extractLsb' 0 8) (w.extractLsb' 8 8) (w.extractLsb' 16 8)
  simp only [BitVec.extractLsb'_toNat, Nat.shiftRight_eq_div_pow] at h
  exact h.trans (by omega)

/-! ## The IRQ line after a perform step (10_state R39, 60_exceptions R126) -/

/-- A completion sets DONE, with and without error, so the line is DONE_IE; a stopped command moves nothing. -/
theorem Engine.conclude_irq {e : Engine} (hb : e.status.busy = true) (r : CommandResult) :
    ((e.conclude r).status.busy = false → (e.conclude r).irq = e.doneIe) ∧
    ((e.conclude r).status.busy = true → (e.conclude r).irq = e.irq) := by
  cases r with
  | success regs out => simp [Engine.irq]
  | raise cause crc => simp [Engine.irq]
  | uninitRead => simp [Engine.irq, hb]

end Sys2Proof.Machine

namespace Sys2Proof.Proofs

open Sys2Proof.Machine Sys2Proof.Claims

/-- Settles O13: every field is read off the word's number, a sum in which each field lies above the ones before. -/
theorem statusWordHasItsFields : Obligations.StatusWordHasItsFields := by
  intro st
  have hb := st.busy.toNat_le
  have hd := st.done.toNat_le
  have hr := st.rejected.toNat_le
  have he := st.errCode.isLt
  have hc := st.causeCode.isLt
  have hw := st.word_toNat
  have bit (i : Nat) : st.word.getLsbD i = decide (st.word.toNat / 2 ^ i % 2 = 1) := Nat.testBit_eq_decide_div_mod_eq
  have flag (b : Bool) : decide (b.toNat = 1) = b := by cases b <;> rfl
  refine ⟨⟨?_, ?_, ?_, ?_⟩, by omega, by omega, by omega⟩
  · rw [bit, show st.word.toNat / 2 ^ 0 % 2 = st.busy.toNat by omega, flag]
  · rw [bit, show st.word.toNat / 2 ^ 1 % 2 = st.done.toNat by omega, flag]
  · rw [bit, show st.word.toNat / 2 ^ 2 % 2 = st.rejected.toNat by omega, flag]
  · rw [bit, show st.word.toNat / 2 ^ 3 % 2 = 0 by omega]; rfl

/-- Settles O43: the read answers the register's word, and that word has the fields of R14. -/
theorem registerReadsWhileIdle : Obligations.RegisterReadsWhileIdle := by
  intro s n rest e off hs he hb h1 h2
  exact ⟨e.readReg (Reg.at off.toNat), e.readReg_readsAs off.toNat, step_readReg hs he h1 h2 (by simp [hb])⟩

/-- Settles O12: the write acknowledges STATUS, and an acknowledged DONE holds the IRQ line low. -/
theorem statusWriteClearsBySetBits : Obligations.StatusWriteClearsBySetBits := by
  intro s n rest e w hs he
  have clears (b c : Bool) : (b && !c) = if c then false else b := by cases c <;> simp
  refine ⟨{ e with status := e.status.acknowledge w }, step_writeReg hs he rfl (by decide) (Bool.and_false _), rfl, ?_,
    fun h => by simp [Engine.irq, h]⟩
  simp only [Status.acknowledge, clears]

/-- Settles O15: acceptance clears DONE, a perform step sets it exactly when it completes, and an IRQ_EN write stores
DONE_IE. -/
theorem irqFollowsDoneAndEnable : Obligations.IrqFollowsDoneAndEnable := by
  refine ⟨fun e w => by simp [Engine.irq], ?_, ?_⟩
  · intro i s t e e' he hb ht he'
    obtain ⟨a, ha, rfl⟩ := exec_next ht
    obtain rfl : e = a := Option.some.inj (he.symm.trans ha)
    rw [State.concluded_active_engine he] at he'
    obtain rfl := Option.some.inj he'
    exact Engine.conclude_irq hb _
  · intro s n rest e w hs he
    exact ⟨{ e with doneIe := w.getLsbD 0 }, step_writeReg hs he rfl (by decide) (Bool.and_false _), rfl, rfl⟩

/-- Settles O45: the written engine is the engine itself, and R14 says what the register at the offset holds. -/
theorem readOnlyRegistersIgnoreWrites : Obligations.ReadOnlyRegistersIgnoreWrites := by
  intro s n rest e off w hs he h1 hro
  have hlt : off.toNat < 0x100 := by rcases hro with h | ⟨-, h⟩ <;> omega
  obtain ⟨hin, hsame⟩ := e.writeReg_readOnly (Reg.at_readOnly hro) w
  refine ⟨?_, fun h => by rw [h]; rfl, fun h => by rw [Reg.at_reserved h]; rfl⟩
  rw [step_writeReg hs he h1 hlt (by simp [hin]), hsame, State.set_same_engine he]
  rfl

/-- Settles O44: the write touches one register's fields, and that register reads back the written bits it has. -/
theorem inputRegisterWriteAndReadBack : Obligations.InputRegisterWriteAndReadBack := by
  intro s n rest e off w hs he hb hoff
  have hreg : off.toNat % 4 = 0 ∧ off.toNat < 0x100 ∧
      (Reg.at off.toNat = .irqEn ∨ (Reg.at off.toNat).isInput = true) := by
    rcases hoff with rfl | rfl | rfl | rfl | rfl <;> decide
  obtain ⟨h1, h2, hr⟩ := hreg
  refine ⟨e.writeReg (Reg.at off.toNat) w, step_writeReg hs he h1 h2 (by simp [hb]), Engine.writeReg_stored hb hr w,
    fun r hne => Engine.readReg_writeReg_other hb hr hne w, ?irqEn, ?inLen, ?typeIn, ?lenIn, ?lenWinIn⟩ <;> rintro rfl
  case irqEn => exact e.readReg_writeReg_irqEn w
  case typeIn => exact e.readReg_writeReg_typeIn w
  case lenWinIn => exact e.readReg_writeReg_lenWinIn w
  case inLen | lenIn => rfl

end Sys2Proof.Proofs
end

section
/-! PROOFS. Buffers: what a command reads of IBUF, what it leaves in OBUF, and the host's accesses to both (20_memory
R43 to R60). -/

namespace Sys2Proof.Machine

/-! ## IBUF as a command reads it (20_memory R60) -/

/-- A map over the held values reaches the read of each cell, and gives no value to a cell without one. -/
theorem Memory.read_map (m : Memory) (f : Nat → Byte → Byte) (a : Nat) :
    Memory.read (m.map fun c => (c.1, f c.1 c.2)) a = (Memory.read m a).map (f a) := by
  induction m with
  | nil => rfl
  | cons c rest ih =>
    simp only [List.map_cons, Memory.read, ih]
    split
    · rename_i h; rw [h]; rfl
    · rfl

/-- A command reads a cell that was not written while it was pending as the cell stands. -/
theorem Engine.read_seenIbuf_of_not_mem {e : Engine} {a : Nat} (h : a ∉ e.hazard.cells) (draw : Nat) :
    Memory.read (e.seenIbuf draw) a = Memory.read e.ibuf a := by
  have hc : e.hazard.cells.contains a = false := by simpa using h
  have hread := Memory.read_map e.ibuf (fun i => seen (e.hazard.cells.contains i) (Config.hazardByte draw i)) a
  have hid : seen (e.hazard.cells.contains a) (Config.hazardByte draw a) = id := by
    funext v; rw [hc]; rfl
  rw [hid, Option.map_id] at hread
  exact hread

/-! ## OBUF after a completion (20_memory R57) -/

/-- The cells that hold a value right after a byte string was stored from cell 0 on. -/
theorem Memory.read_ofBytes_isSome (vs : List Byte) (a : Nat) :
    (Memory.read (Memory.ofBytes 0 vs) a).isSome ↔ a < vs.length := by
  have hread := Memory.read_ofBytes 0 vs a
  rw [Nat.zero_add] at hread
  rw [hread, isSome_getElem?]

/-- A completion, with a result as long as OUT_LEN says, fills OBUF exactly below OUT_LEN; an error leaves OUT_LEN 0. -/
theorem Engine.conclude_obuf {e : Engine} (hb : e.status.busy = true) {r : CommandResult} (hr : r.legal)
    (hdone : (e.conclude r).status.busy = false) :
    (∀ a, (Memory.read (e.conclude r).obuf a).isSome ↔ a < (e.conclude r).results.outLen.toNat) ∧
    ((e.conclude r).status.err ≠ none → (e.conclude r).results.outLen = 0#32) := by
  cases r with
  | success regs out =>
    obtain ⟨hlen, -⟩ := hr
    refine ⟨fun a => ?_, fun herr => absurd rfl herr⟩
    simp only [Engine.conclude_success, Engine.completeSuccess_obuf, Engine.completeSuccess_results, hlen]
    exact Memory.read_ofBytes_isSome out a
  | raise cause crc => exact ⟨fun a => by simp [Memory.read, ResultRegs.zero], fun _ => rfl⟩
  | uninitRead => exact absurd (hb.symm.trans hdone) (by decide)

/-! ## Byte lanes (20_memory R46) -/

/-- Lane j of a written value is its byte j. -/
theorem WriteData.lanes_getElem? (d : WriteData) {j : Nat} (h : j < d.size.bytes) :
    d.lanes[j]? = some (Claims.writtenByte d j) := by
  cases d with
  | byte v =>
    obtain rfl : j = 0 := Nat.lt_one_iff.1 h
    exact congrArg some (BitVec.extractLsb'_eq_self).symm
  | half v =>
    match j, h with
    | 0, _ | 1, _ => rfl
  | word v =>
    match j, h with
    | 0, _ | 1, _ | 2, _ | 3, _ => rfl

/-- At most four lanes fit a word, so their word is their sum. -/
theorem leWord_toNat (cells : List Byte) (h : cells.length ≤ 4) :
    (leWord cells).toNat = Claims.lanesValue cells ∧ Claims.lanesValue cells < 256 ^ cells.length := by
  induction cells with
  | nil => exact ⟨rfl, by decide⟩
  | cons b rest ih =>
    rw [List.length_cons] at h
    obtain ⟨hval, hlt⟩ := ih (by omega)
    have hb := b.isLt
    have hbound : Claims.lanesValue (b :: rest) < 256 ^ (b :: rest).length := by
      simp only [Claims.lanesValue, List.length_cons, Nat.pow_succ]; omega
    have hword : 256 ^ (b :: rest).length ≤ 2 ^ 32 := by
      simpa using Nat.pow_le_pow_right (n := 256) (by decide) h
    refine ⟨?_, hbound⟩
    rw [leWord_cons_toNat, hval]
    exact Nat.mod_eq_of_lt (Nat.lt_of_lt_of_le hbound hword)

theorem AccessSize.bytes_le (size : AccessSize) : size.bytes ≤ 4 := by cases size <;> decide

/-! ## Host reads (20_memory R51, R53) -/

/-- A host read of a buffer that gives no free value (R148): it is the read of its cells. -/
theorem State.hostAccess_readBuffer {e : Engine} {off : BitVec 19} {size : AccessSize} {buf : Memory} {a : Nat}
    (halign : off.toNat % size.bytes = 0)
    (hbuf : 0x20000 ≤ off.toNat ∧ off.toNat < 0x40000 ∧ buf = e.ibuf ∧ a = off.toNat - 0x20000 ∨
      0x40000 ≤ off.toNat ∧ off.toNat < 0x60000 ∧ e.status.busy = false ∧ buf = e.obuf ∧
        a = off.toNat - 0x40000)
    (s : State) (n : Nat) :
    s.hostAccess n e ⟨off, .read size⟩ = s.cellRead (Memory.readBytes buf a size.bytes) := by
  rcases hbuf with ⟨hlo, hhi, rfl, ha⟩ | ⟨hlo, hhi, hb, rfl, ha⟩
  · rw [ha, State.hostAccess_read (target_ibuf halign hlo hhi)]; rfl
  · rw [ha, State.hostAccess_read (target_obuf halign hlo hhi), State.hostRead, hb]; rfl

/-- A read of buffer cells changes no engine, and records at most UNINIT_READ. -/
theorem State.cellRead_keeps (s : State) (cells : Option (List Byte)) :
    (s.cellRead cells).engines = s.engines ∧ (s.cellRead cells).faults.hostHazard = s.faults.hostHazard := by
  cases cells with
  | none => exact ⟨rfl, rfl⟩
  | some vs => exact ⟨rfl, rfl⟩

/-- A host read changes no engine, and records at most UNINIT_READ: it gives a register, cells or a free value. -/
theorem State.hostRead_keeps (s : State) (e : Engine) (tg : Target) (size : AccessSize) :
    (s.hostRead e tg size).engines = s.engines ∧ (s.hostRead e tg size).faults.hostHazard = s.faults.hostHazard := by
  cases tg with
  | reg r => simp only [State.hostRead]; split <;> exact ⟨rfl, rfl⟩
  | ibuf i => exact s.cellRead_keeps _
  | obuf i =>
    simp only [State.hostRead]
    split
    · exact ⟨rfl, rfl⟩
    · exact s.cellRead_keeps _

theorem State.hostAccess_read_keeps (s : State) (n : Nat) (e : Engine) (off : BitVec 19) (size : AccessSize) :
    (s.hostAccess n e ⟨off, .read size⟩).engines = s.engines ∧
    (s.hostAccess n e ⟨off, .read size⟩).faults.hostHazard = s.faults.hostHazard := by
  cases htg : target off.toNat size with
  | none => rw [State.hostAccess_of_none htg]; exact ⟨rfl, rfl⟩
  | some tg => rw [State.hostAccess_read htg]; exact s.hostRead_keeps e tg size

/-! ## Host writes to IBUF -/

/-- An idle engine stores the bytes in IBUF and marks no hazard. -/
theorem Engine.writeIbuf_idle {e : Engine} (hb : e.status.busy = false) (a : Nat) (bytes : List Byte) :
    e.writeIbuf a bytes = { e with ibuf := Memory.writeBytes e.ibuf a bytes } := by
  simp only [Engine.writeIbuf, hb, Bool.false_eq_true, if_false]

end Sys2Proof.Machine

namespace Sys2Proof.Proofs

open Sys2Proof.Machine Sys2Proof.Claims

/-- Settles O38: without a hazard the operands are the stored ones, and a cell that was not written is seen as it
stands. -/
theorem commandReadsWhatWasLeft : Obligations.CommandReadsWhatWasLeft := by
  intro e draw
  refine ⟨fun hclear => ?_, fun a ha => Engine.read_seenIbuf_of_not_mem ha draw⟩
  obtain ⟨hregs, hibuf⟩ := Operands.mk.inj (Engine.operands_of_clear hclear draw)
  exact ⟨hregs, fun a => by rw [hibuf]⟩

/-- Settles O36: the command's result is legal, and a completion with a legal result fills OBUF below OUT_LEN. -/
theorem outputBufferAfterCompletion : Obligations.OutputBufferAfterCompletion := by
  intro i s t e e' he hb ht he' hdone
  obtain ⟨a, ha, rfl⟩ := exec_next ht
  obtain rfl : e = a := Option.some.inj (he.symm.trans ha)
  rw [State.concluded_active_engine he] at he'
  obtain rfl := Option.some.inj he'
  exact Engine.conclude_obuf hb (ruleOf_legal i _) hdone

/-- Settles O40: the cells of the write read back as its lanes, and the other cells as before. -/
theorem ibufWriteStoresItsLanes : Obligations.IbufWriteStoresItsLanes := by
  intro s n rest e off d hs he hb halign hlo hhi
  refine ⟨{ e with ibuf := Memory.writeBytes e.ibuf (off.toNat - 0x20000) d.lanes }, ?_, rfl, fun j hj => ?_,
    fun a ha => ?_⟩
  · rw [step_host hs he, State.hostAccess_writeIbuf halign hlo hhi, hb, Engine.writeIbuf_idle hb]
    rfl
  · rw [← d.lanes_getElem? hj]
    exact Memory.read_writeBytes _ _ _ (by rwa [WriteData.lanes_length])
  · exact Memory.read_writeBytes_other _ _ _ (by rwa [WriteData.lanes_length])

/-- Settles O41: the access reads its cells together, which gives their word if all hold values and nothing if one
does not. -/
theorem bufferReadGivesLanesOrFaults : Obligations.BufferReadGivesLanesOrFaults := by
  intro s n rest e off size buf a hs he halign hbuf
  have hstep : step s = .next ((without s rest).cellRead (Memory.readBytes buf a size.bytes)) := by
    rw [step_host hs he, State.hostAccess_readBuffer halign hbuf]; rfl
  refine ⟨fun cells hlen hcells => ?_, fun j hj hnone => ?_⟩
  · have hread := (Memory.readBytes_eq_some buf a size.bytes cells).2 ⟨hlen, hcells⟩
    have hle : cells.length ≤ 4 := hlen ▸ size.bytes_le
    exact ⟨leWord cells, (leWord_toNat cells hle).1, by rw [hstep, hread]; rfl⟩
  · have hread := (Memory.readBytes_eq_none buf a size.bytes).2 ⟨j, hj, hnone⟩
    rw [hstep, hread]
    rfl

/-- Settles O46: the turn is one host access, and a read keeps the engines and HOST_HAZARD. -/
theorem readsHaveNoSideEffect : Obligations.ReadsHaveNoSideEffect := by
  intro s n rest e off size hs he
  obtain ⟨hengines, hhazard⟩ := State.hostAccess_read_keeps { s with schedule := rest } n e off size
  obtain ⟨hschedule, hactive, hscript, -⟩ :=
    State.hostAccess_frame { s with schedule := rest } n e ⟨off, .read size⟩
  exact ⟨_, step_host hs he, hengines, hhazard, hschedule, hactive, hscript⟩

/-- Settles O49: the platform address lies in engine k's window at the offset, so both turns are the same host access. -/
theorem platformAddressReachesItsEngine : Obligations.PlatformAddressReachesItsEngine := by
  refine ⟨rfl, fun s k rest e off a he => ?_⟩
  calc step { s with schedule := .bus (Config.engineBase + k * Config.engineWindow + off.toNat) a :: rest }
    _ = .next (({ s with schedule := rest } : State).hostAccess k e ⟨off, a⟩) :=
      step_bus rfl (windowOf_window k off) he
    _ = step { s with schedule := .host k ⟨off, a⟩ :: rest } :=
      (step_host (s := { s with schedule := .host k ⟨off, a⟩ :: rest }) rfl he).symm

end Sys2Proof.Proofs
end

section
/-! PROOFS. Perform turns: what a completion leaves of its engine, what a turn leaves of the other engines, and turns of
two engines in either order (20_memory R56, R62). -/

namespace Sys2Proof.Machine

/-! ## What a perform step leaves of its own engine (40_control R90, R91) -/

@[simp] theorem Engine.conclude_cmd (e : Engine) (r : CommandResult) : (e.conclude r).cmd = e.cmd := by
  cases r <;> rfl
@[simp] theorem Engine.conclude_doneIe (e : Engine) (r : CommandResult) : (e.conclude r).doneIe = e.doneIe := by
  cases r <;> rfl
@[simp] theorem Engine.conclude_rejected (e : Engine) (r : CommandResult) :
    (e.conclude r).status.rejected = e.status.rejected := by cases r <;> rfl
@[simp] theorem Engine.conclude_inputs (e : Engine) (r : CommandResult) : (e.conclude r).inputs = e.inputs := by
  cases r <;> rfl
@[simp] theorem Engine.conclude_ibuf (e : Engine) (r : CommandResult) : (e.conclude r).ibuf = e.ibuf := by
  cases r <;> rfl

/-- A perform step records a fault only if it stops its command, and then the engine keeps its results, STATUS and
OBUF (40_control R93). -/
theorem State.concluded_faults_or_stuck (s : State) (e : Engine) (r : CommandResult) :
    (s.concluded e r).faults = s.faults ∨ e.conclude r = { e with stuck := true } := by
  cases r with
  | success regs out => exact .inl rfl
  | raise cause crc => exact .inl rfl
  | uninitRead => exact .inr rfl

/-! ## A perform turn as a function of the engine -/

/-- The rule of a command word: a table command's, or a reserved word's (30_encoding R67, R68). -/
def ruleOfWord (w : Word) : Operands → CommandResult :=
  match decode w with
  | .ok i => ruleOf i
  | .error _ => reservedResult

theorem State.runWord_eq_performCommand (s : State) (w : Word) : s.runWord w = s.performCommand (ruleOfWord w) := by
  unfold State.runWord ruleOfWord
  cases decode w with
  | ok i => exact exec_eq_performCommand i s
  | error x => rfl

/-- What the rule gives in a turn of engine e, if the engine has a step (40_control R89). -/
def Engine.turnResult (e : Engine) (draw : Nat) : Option CommandResult :=
  if e.enabled then some (ruleOfWord e.cmd (e.operands draw)) else none

/-- The engine after a turn in which its rule gave this. -/
def Engine.afterTurn (e : Engine) : Option CommandResult → Engine
  | none => e
  | some r => e.conclude r

/-- The state after a turn of engine n, whose state is e, in which its rule gave this. -/
def State.performed (s : State) (n : Nat) (e : Engine) : Option CommandResult → State
  | none => s
  | some r => ({ s with active := n } : State).concluded e r

/-- A perform turn of an engine that exists. -/
theorem State.performTurn_eq {s : State} {n : Nat} {e : Engine} (he : s.engines[n]? = some e) :
    s.performTurn n = .next (s.performed n e (e.turnResult s.draws)) := by
  cases hen : e.enabled with
  | true =>
    have hrun := performCommand_eq (s := { s with active := n }) he (ruleOfWord e.cmd)
    simp only [State.performTurn, he, hen, if_true, State.runWord_eq_performCommand, hrun, Engine.turnResult]
    rfl
  | false =>
    simp only [State.performTurn_disabled he hen, Engine.turnResult, hen, Bool.false_eq_true, if_false]
    rfl

/-- Without a hazard no free value is read, so the draw does not matter (20_memory R60). -/
theorem Engine.turnResult_of_clear {e : Engine} (h : e.hazard = Hazard.clear) (d d' : Nat) :
    e.turnResult d = e.turnResult d' := by
  simp only [Engine.turnResult, Engine.operands_of_clear h]

theorem State.performed_engines {s : State} {n : Nat} {e : Engine} (he : s.engines[n]? = some e)
    (o : Option CommandResult) : (s.performed n e o).engines = s.engines.set n (e.afterTurn o) := by
  cases o with
  | none => exact (State.set_same_engine he).symm
  | some r => exact State.concluded_engines _ e r

@[simp] theorem State.performed_faults (s : State) (n : Nat) (e : Engine) (o : Option CommandResult) :
    (s.performed n e o).faults = if o.any CommandResult.isUninit then s.faults.record .uninitRead else s.faults := by
  cases o with
  | none => rfl
  | some r => exact State.concluded_faults _ e r

@[simp] theorem State.performed_response (s : State) (n : Nat) (e : Engine) (o : Option CommandResult) :
    (s.performed n e o).response = s.response := by
  cases o with
  | none => rfl
  | some r => exact State.concluded_response _ e r

@[simp] theorem State.performed_schedule (s : State) (n : Nat) (e : Engine) (o : Option CommandResult) :
    (s.performed n e o).schedule = s.schedule := by
  cases o with
  | none => rfl
  | some r => exact State.concluded_schedule _ e r

@[simp] theorem State.performed_draws (s : State) (n : Nat) (e : Engine) (o : Option CommandResult) :
    (s.performed n e o).draws = s.draws + o.toList.length := by
  cases o with
  | none => rfl
  | some r => exact State.concluded_draws _ e r

/-! ## Other engines (20_memory R62) -/

theorem State.performed_engines_other {s : State} {n m : Nat} {e : Engine} (he : s.engines[n]? = some e) (hne : m ≠ n)
    (o : Option CommandResult) : (s.performed n e o).engines[m]? = s.engines[m]? := by
  rw [State.performed_engines he, List.getElem?_set_ne hne.symm]

theorem State.hostAccess_engines_other (s : State) {n m : Nat} (e : Engine) (tr : Transaction) (hne : m ≠ n) :
    (s.hostAccess n e tr).engines[m]? = s.engines[m]? := by
  rcases State.hostAccess_engines s n e tr with h | ⟨r, w, h⟩ | ⟨i, bytes, -, h⟩
  · rw [h]
  · rw [h, List.getElem?_set_ne hne.symm]
  · rw [h, List.getElem?_set_ne hne.symm]

/-- A step with a turn left takes the first one. -/
theorem step_turn {s : State} {turn : Turn} {rest : List Turn} (hs : s.schedule = turn :: rest) :
    step s = ({ s with schedule := rest } : State).takeTurn turn := by
  rw [step, hs]

/-- A perform turn that answers a next state is one of an engine that exists. -/
theorem step_perform_next {s t : State} {n : Nat} {rest : List Turn} (hs : s.schedule = .perform n :: rest)
    (h : step s = .next t) :
    ∃ e, s.engines[n]? = some e ∧ t = ({ s with schedule := rest } : State).performed n e (e.turnResult s.draws) := by
  rw [step_turn hs, State.takeTurn] at h
  cases he : s.engines[n]? with
  | none => simp [State.performTurn, he] at h
  | some e =>
    rw [State.performTurn_eq (s := { s with schedule := rest }) he] at h
    exact ⟨e, rfl, (Host.Outcome.next.inj h).symm⟩

/-- A host turn that answers a next state is an access to an engine that exists. -/
theorem step_host_next {s t : State} {n : Nat} {tr : Transaction} {rest : List Turn}
    (hs : s.schedule = .host n tr :: rest) (h : step s = .next t) :
    ∃ e, s.engines[n]? = some e ∧ t = ({ s with schedule := rest } : State).hostAccess n e tr := by
  cases he : s.engines[n]? with
  | none => simp [step_turn hs, State.takeTurn, State.hostTurn, he] at h
  | some e =>
    rw [step_host hs he] at h
    exact ⟨e, rfl, (Host.Outcome.next.inj h).symm⟩

/-- The engines after turns of two of them. -/
theorem State.performed_twice_engines {s : State} {n m : Nat} {en em : Engine} (hne : m ≠ n)
    (hn : s.engines[n]? = some en) (hm : s.engines[m]? = some em) (rest : List Turn) (x y : Option CommandResult) :
    (({ s.performed n en x with schedule := rest } : State).performed m em y).engines =
      (s.engines.set n (en.afterTurn x)).set m (em.afterTurn y) := by
  have hm' : (s.performed n en x).engines[m]? = some em := (State.performed_engines_other hn hne x).trans hm
  rw [State.performed_engines (s := { s.performed n en x with schedule := rest }) hm']
  exact congrArg (List.set · m (em.afterTurn y)) (State.performed_engines hn x)

/-- Two perform turns in a row, of different engines of which the second reads no free value: what each rule gives is
settled before either engine moves. -/
theorem step_perform_twice {s t u : State} {n m : Nat} {rest : List Turn} {en em : Engine} (hne : m ≠ n)
    (hn : s.engines[n]? = some en) (hm : s.engines[m]? = some em) (hclear : em.hazard = Hazard.clear)
    (ht : step { s with schedule := .perform n :: .perform m :: rest } = .next t) (hu : step t = .next u) :
    u = ({ ({ s with schedule := .perform m :: rest } : State).performed n en (en.turnResult s.draws) with
      schedule := rest } : State).performed m em (em.turnResult s.draws) := by
  obtain ⟨en', hn', rfl⟩ := step_perform_next rfl ht
  obtain rfl : en = en' := Option.some.inj (hn.symm.trans hn')
  obtain ⟨em', hm', rfl⟩ := step_perform_next (State.performed_schedule _ n en _) hu
  rw [State.performed_engines_other (s := { s with schedule := .perform m :: rest }) hn hne] at hm'
  obtain rfl : em = em' := Option.some.inj (hm.symm.trans hm')
  rw [Engine.turnResult_of_clear hclear _ s.draws]

end Sys2Proof.Machine

namespace Sys2Proof.Proofs

open Sys2Proof.Machine Sys2Proof.Claims

/-- Settles O35: a perform step replaces its own engine by the concluded one, which keeps the inputs. -/
theorem commandFrame : Obligations.CommandFrame := by
  intro i s t e he ht
  obtain ⟨a, ha, rfl⟩ := exec_next ht
  obtain rfl : e = a := Option.some.inj (he.symm.trans ha)
  generalize ruleOf i (e.operands s.draws) = r
  refine ⟨e.conclude r, State.concluded_active_engine he r, e.conclude_cmd r, e.conclude_doneIe r,
    e.conclude_rejected r, e.conclude_inputs r, fun a => by rw [e.conclude_ibuf], fun n hn => ?_,
    s.concluded_schedule e r, s.concluded_active e r, s.concluded_response e r, s.concluded_script e r, ?_⟩
  · rw [State.concluded_engines, List.getElem?_set_ne hn.symm]
  · rcases s.concluded_faults_or_stuck e r with hfaults | hstuck
    · exact .inl hfaults
    · rw [hstuck]
      exact .inr ⟨rfl, rfl, rfl, fun _ => rfl⟩

/-- Settles O58: both turns rewrite at most engine n. -/
theorem enginesShareNoState : Obligations.EnginesShareNoState := by
  intro s s' rest n m t hne hs h
  rcases hs with hs | hs
  · obtain ⟨e, he, rfl⟩ := step_perform_next hs h
    exact State.performed_engines_other (s := { s with schedule := rest }) he hne _
  · obtain ⟨e, -, rfl⟩ := step_host_next hs h
    exact State.hostAccess_engines_other _ e t hne

/-- Settles O59: each turn gives the same in either order, the two rewrite different engines, and recording UNINIT_READ
and counting draws do not depend on the order. -/
theorem performTurnsOfTwoEnginesCommute : Obligations.PerformTurnsOfTwoEnginesCommute := by
  intro s a a' b b' n m rest en em hne hn hm hcn hcm ha ha' hb hb'
  obtain rfl := step_perform_twice hne hn hm hcm ha ha'
  obtain rfl := step_perform_twice hne.symm hm hn hcn hb hb'
  generalize en.turnResult s.draws = x
  generalize em.turnResult s.draws = y
  refine ⟨?engines, ?faults, by simp, ?draws, by simp, by simp⟩
  case engines =>
    rw [State.performed_twice_engines (s := { s with schedule := .perform m :: rest }) hne hn hm,
      State.performed_twice_engines (s := { s with schedule := .perform n :: rest }) hne.symm hm hn]
    exact List.set_comm _ _ hne.symm
  case faults =>
    simp only [State.performed_faults]
    split <;> split <;> rfl
  case draws =>
    simp only [State.performed_draws]
    omega

end Sys2Proof.Proofs
end

section
/-! PROOFS. Command words and the host script: the decoder, what each kind of script line does, and what the
pseudo-instructions do (30_encoding R67 to R69, R84, R85). -/

namespace Sys2Proof

/-- The decoder takes exactly the encoder's words (30_encoding R67). -/
theorem decode_eq_ok_iff (w : Word) (i : Instr) : decode w = .ok i ↔ w = encode i := by
  constructor
  · intro h
    by_cases hw : ∃ j, w = encode j
    · obtain ⟨j, rfl⟩ := hw
      rw [decode_encode] at h
      rw [Except.ok.inj h]
    · rw [decode_of_ne (not_exists.1 hw)] at h
      cases h
  · rintro rfl
    exact decode_encode i

end Sys2Proof

namespace Sys2Proof.Machine

/-! ## Names of a script (30_encoding R84) -/

/-- Dropping the pairs of one key leaves the lookup of every other key. -/
theorem lookup_filter_ne (names : List (Nat × Word)) {name other : Nat} (h : other ≠ name) :
    (names.filter (fun b => b.1 != name)).lookup other = names.lookup other := by
  induction names with
  | nil => rfl
  | cons b rest ih =>
    obtain ⟨key, v⟩ := b
    by_cases hkey : key = name
    · simp [hkey, List.lookup_cons, ih, beq_eq_false_iff_ne.2 h]
    · simp [hkey, List.lookup_cons, ih]

@[simp] theorem Script.bind_engine (sc : Script) (name : Nat) (r : Option Response) :
    (sc.bind name r).engine = sc.engine := by unfold Script.bind; split <;> rfl
@[simp] theorem Script.bind_lines (sc : Script) (name : Nat) (r : Option Response) :
    (sc.bind name r).lines = sc.lines := by unfold Script.bind; split <;> rfl
@[simp] theorem Script.bind_next (sc : Script) (name : Nat) (r : Option Response) :
    (sc.bind name r).next = sc.next := by unfold Script.bind; split <;> rfl
@[simp] theorem Script.advance_engine (sc : Script) : sc.advance.engine = sc.engine := rfl
@[simp] theorem Script.advance_lines (sc : Script) : sc.advance.lines = sc.lines := rfl
@[simp] theorem Script.advance_next (sc : Script) : sc.advance.next = sc.next + 1 := rfl
@[simp] theorem Script.advance_lookup (sc : Script) (name : Nat) : sc.advance.lookup name = sc.lookup name := rfl

@[simp] theorem Script.lookup_bind_same (sc : Script) (name : Nat) (v : Word) :
    (sc.bind name (some (.data v))).lookup name = some v := by simp [Script.bind, Script.lookup]

theorem Script.lookup_bind_other (sc : Script) {name other : Nat} (h : other ≠ name) (r : Option Response) :
    (sc.bind name r).lookup other = sc.lookup other := by
  unfold Script.bind Script.lookup
  split
  · simp only [List.lookup_cons, beq_eq_false_iff_ne.2 h]
    exact lookup_filter_ne sc.names h
  · exact lookup_filter_ne sc.names h

/-! ## Script turns, one lemma for each kind of line (30_encoding R84) -/

/-- A branch on a bound name to a label that names a line moves the script and nothing else. -/
theorem State.branch_eq {s : State} {name label k : Nat} {v : Word} (hv : s.script.lookup name = some v)
    (hk : s.script.lines.findIdx? (fun l => l.label == some label) = some k) (sense : Bool) (mask value : Word) :
    s.branch sense name mask value label = .next { s with script := { s.script with
      next := if decide (v &&& mask = value) = sense then k else s.script.next + 1 } } := by
  simp only [State.branch, hv, hk]
  split <;> rfl

section ScriptTurn

variable {s : State} {rest : List Turn} {line : ScriptLine} {e : Engine} (hs : s.schedule = .script :: rest)
  (hl : s.script.lines[s.script.next]? = some line) (he : s.engines[s.script.engine]? = some e)

include hs hl

theorem step_script_beq {name label k : Nat} {mask value v : Word}
    (hst : line.stmt = .beq name mask value label) (hv : s.script.lookup name = some v)
    (hk : s.script.lines.findIdx? (fun l => l.label == some label) = some k) :
    step s = .next { Claims.without s rest with script := { s.script with
      next := if v &&& mask = value then k else s.script.next + 1 } } := by
  simp only [step_script hs, State.scriptTurn, hl, hst]
  rw [State.branch_eq (s := { s with schedule := rest }) hv hk]
  simp only [decide_eq_true_eq]
  rfl

theorem step_script_bne {name label k : Nat} {mask value v : Word}
    (hst : line.stmt = .bne name mask value label) (hv : s.script.lookup name = some v)
    (hk : s.script.lines.findIdx? (fun l => l.label == some label) = some k) :
    step s = .next { Claims.without s rest with script := { s.script with
      next := if v &&& mask = value then s.script.next + 1 else k } } := by
  simp only [step_script hs, State.scriptTurn, hl, hst]
  rw [State.branch_eq (s := { s with schedule := rest }) hv hk]
  simp only [decide_eq_false_iff_not, ite_not]
  rfl

include he

theorem step_script_write {off : BitVec 19} {d : WriteData} (hst : line.stmt = .write off d) :
    step s = .next { ({ s with schedule := rest } : State).hostAccess s.script.engine e ⟨off, .write d⟩ with
      script := s.script.advance } := by
  simp only [step_script hs, State.scriptTurn, hl, hst, he]

theorem step_script_read {off : BitVec 19} {size : AccessSize} {name : Nat} {t : State}
    (hst : line.stmt = .read size off name)
    (ht : ({ s with schedule := rest } : State).hostAccess s.script.engine e ⟨off, .read size⟩ = t) :
    step s = .next { t with script := (s.script.bind name t.response).advance } := by
  simp only [step_script hs, State.scriptTurn, hl, hst, he, ht]

end ScriptTurn

/-! ## CMD, SETWIN and ACK: one 32-bit write to the register page (30_encoding R85) -/

/-- A script line that writes a register rewrites its engine by the register write, hazard or not. -/
theorem step_script_writeReg {s : State} {rest : List Turn} {line : ScriptLine} {e : Engine} {off : BitVec 19}
    {w : Word} (hs : s.schedule = .script :: rest) (hl : s.script.lines[s.script.next]? = some line)
    (he : s.engines[s.script.engine]? = some e) (h1 : off.toNat % 4 = 0) (h2 : off.toNat < 0x100)
    (hst : line.stmt = .write off (.word w)) :
    ∃ t, step s = .next t ∧ t.engines[s.script.engine]? = some (e.writeReg (Reg.at off.toNat) w) := by
  obtain ⟨hlt, -⟩ := List.getElem?_eq_some_iff.1 he
  refine ⟨_, step_script_write hs hl he hst, ?_⟩
  simp [State.hostAccess_writeReg h1 h2, hlt]

/-- A CMD write to an idle engine accepts the word (40_control R87). -/
theorem Engine.issue_idle {e : Engine} (hb : e.status.busy = false) (w : Word) : e.issue w = e.accept w := by
  simp [Engine.issue, hb]

/-- Three byte fields added up in a word. -/
theorem threeBytes_sum_toNat (b0 b1 b2 : Byte) :
    ((b2.setWidth 32 <<< 16) + (b1.setWidth 32 <<< 8) + b0.setWidth 32 : Word).toNat =
      65536 * b2.toNat + 256 * b1.toNat + b0.toNat := by
  have h0 := b0.isLt
  have h1 := b1.isLt
  have h2 := b2.isLt
  simp only [BitVec.toNat_add, BitVec.toNat_shiftLeft, BitVec.toNat_setWidth, Nat.shiftLeft_eq]
  omega

/-- The word that SETWIN writes leaves its three bytes in the fields of LEN_WIN_IN (10_state R23). -/
theorem InputRegs.store_lenWinIn_sum (x : InputRegs) (size b0 b1 : Byte) :
    x.store .lenWinIn ((size.setWidth 32 <<< 16) + (b1.setWidth 32 <<< 8) + b0.setWidth 32) =
      { x with winB0 := b0, winB1 := b1, winSize := size } := by
  have hw := threeBytes_sum_toNat b0 b1 size
  generalize ((size.setWidth 32 <<< 16) + (b1.setWidth 32 <<< 8) + b0.setWidth 32 : Word) = w at hw
  have h0 := b0.isLt
  have h1 := b1.isLt
  have h2 := size.isLt
  have field (i : Nat) (b : Byte) (h : w.toNat / 2 ^ i % 256 = b.toNat) : w.extractLsb' i 8 = b := by
    apply BitVec.eq_of_toNat_eq
    rw [BitVec.extractLsb'_toNat, Nat.shiftRight_eq_div_pow]
    exact h
  rw [InputRegs.store, field 0 b0 (by omega), field 8 b1 (by omega), field 16 size (by omega)]

/-- The word 6 has the bits of DONE and REJECTED (10_state R18). -/
theorem Status.acknowledge_six (st : Status) : st.acknowledge 6#32 = { st with done := false, rejected := false } := by
  simp [Status.acknowledge]

/-! ## WAITDONE (30_encoding R85) -/

/-- The mask 2 tests DONE in the STATUS word (10_state R17). -/
theorem Status.word_and_two_eq_zero (st : Status) : st.word &&& 0x2#32 = 0x0#32 ↔ st.done = false := by
  obtain ⟨⟨-, hdone, -⟩, -⟩ := Proofs.statusWordHasItsFields st
  have hmask : st.word &&& 0x2#32 = if st.done then 0x2#32 else 0x0#32 := by
    rw [← hdone]
    exact BitVec.and_twoPow st.word 1
  rw [hmask]
  cases st.done <;> simp

/-- A script line that reads STATUS binds its word, busy or idle, and changes no engine (20_memory R51). -/
theorem step_script_readStatus {s : State} {rest : List Turn} {line : ScriptLine} {e : Engine} {name : Nat}
    (hs : s.schedule = .script :: rest) (hl : s.script.lines[s.script.next]? = some line)
    (he : s.engines[s.script.engine]? = some e) (hst : line.stmt = .read .four 0x008#19 name) :
    step s = .next { Claims.without s rest with
      response := some (.data e.status.word)
      script := (s.script.bind name (some (.data e.status.word))).advance } := by
  have haccess : ({ s with schedule := rest } : State).hostAccess s.script.engine e ⟨0x008#19, .read .four⟩ =
      ({ s with schedule := rest } : State).respond (.data e.status.word) := by
    rw [State.hostAccess_read (target_reg (by decide) (by decide))]
    simp [State.hostRead, Reg.at, Reg.isResult, Engine.readReg]
  exact step_script_read hs hl he hst haccess

/-- The two lines of WAITDONE: STATUS is bound to the name, and the branch goes back while DONE = 0. -/
theorem run_waitDone {s : State} {rest : List Turn} {e : Engine} {name label : Nat} {read branch : ScriptLine}
    (hs : s.schedule = .script :: .script :: rest) (he : s.engines[s.script.engine]? = some e)
    (hread : s.script.lines[s.script.next]? = some read) (hbranch : s.script.lines[s.script.next + 1]? = some branch)
    (hrst : read.stmt = .read .four 0x008#19 name) (hbst : branch.stmt = .beq name 0x2#32 0x0#32 label)
    (hk : s.script.lines.findIdx? (fun l => l.label == some label) = some s.script.next) :
    Claims.afterTurns s { Claims.without s rest with
      response := some (.data e.status.word)
      script := { s.script.bind name (some (.data e.status.word)) with
        next := if e.status.done then s.script.next + 2 else s.script.next } } 2 := by
  have hfirst := step_script_readStatus hs hread he hrst
  have hsecond := step_script_beq (s := { Claims.without s (.script :: rest) with
      response := some (.data e.status.word)
      script := (s.script.bind name (some (.data e.status.word))).advance })
    (v := e.status.word) (k := s.script.next) rfl (by simpa using hbranch) hbst (by simp) (by simpa using hk)
  rw [Claims.afterTurns, run_succ hfirst, run_succ hsecond]
  simp only [Status.word_and_two_eq_zero, Script.advance_next, Script.bind_next]
  cases e.status.done <;> rfl

/-! ## LOADI (30_encoding R85) -/

/-- A script line that writes one byte to a cell of IBUF of an idle engine. -/
theorem step_script_writeCell {s : State} {rest : List Turn} {line : ScriptLine} {e : Engine} {i : Nat} {b : Byte}
    (hs : s.schedule = .script :: rest) (hl : s.script.lines[s.script.next]? = some line)
    (he : s.engines[s.script.engine]? = some e) (hb : e.status.busy = false) (hi : i < 131072)
    (hst : line.stmt = .write (BitVec.ofNat 19 (0x20000 + i)) (.byte b)) :
    step s = .next { Claims.without s rest with
      engines := s.engines.set s.script.engine { e with ibuf := Memory.write e.ibuf i b }
      response := some .written
      script := s.script.advance } := by
  have hoff : (BitVec.ofNat 19 (0x20000 + i)).toNat = 0x20000 + i := Nat.mod_eq_of_lt (by omega)
  rw [step_script_write hs hl he hst,
    State.hostAccess_writeIbuf (Nat.mod_one _) (by omega) (by omega), hoff, Nat.add_sub_cancel_left, hb,
    Engine.writeIbuf_idle hb]
  rfl

/-- The lines of LOADI, one turn each, store the bytes from cell i on, by induction on the bytes. -/
theorem run_loadI (bytes : List Byte) {s : State} {rest : List Turn} {e : Engine} {i : Nat}
    (hs : s.schedule = List.replicate bytes.length .script ++ rest) (he : s.engines[s.script.engine]? = some e)
    (hb : e.status.busy = false) (hi : i + bytes.length ≤ 131072)
    (hl : ∀ j, j < bytes.length → s.script.lines[s.script.next + j]? = (expandLoad i bytes)[j]?) :
    ∃ t, Claims.afterTurns s t bytes.length ∧
      t.engines = s.engines.set s.script.engine { e with ibuf := Memory.writeBytes e.ibuf i bytes } ∧
      t.faults = s.faults ∧ t.schedule = rest ∧
      t.script = { s.script with next := s.script.next + bytes.length } := by
  induction bytes generalizing s e i with
  | nil => exact ⟨s, rfl, (State.set_same_engine he).symm, rfl, hs, rfl⟩
  | cons b bytes ih =>
    rw [List.length_cons] at hi
    obtain ⟨hlt, -⟩ := List.getElem?_eq_some_iff.1 he
    have hfirst := step_script_writeCell (i := i) (b := b) (rest := List.replicate bytes.length .script ++ rest)
      hs (hl 0 (by simp)) he hb (by omega) rfl
    obtain ⟨t, hrun, hengines, hfaults, hschedule, hscript⟩ :=
      ih (s := { Claims.without s (List.replicate bytes.length .script ++ rest) with
          engines := s.engines.set s.script.engine { e with ibuf := Memory.write e.ibuf i b }
          response := some .written
          script := s.script.advance })
        (e := { e with ibuf := Memory.write e.ibuf i b }) (i := i + 1) rfl (by simp [hlt]) hb (by omega)
        (fun j hj => by simpa [Nat.add_assoc, Nat.add_comm 1, expandLoad] using hl (j + 1) (by simpa using hj))
    refine ⟨t, (run_succ hfirst bytes.length).trans hrun, ?_, hfaults, hschedule, ?_⟩
    · exact hengines.trans (List.set_set _)
    · rw [hscript]
      simp [Script.advance, Nat.add_assoc, Nat.add_comm 1]

end Sys2Proof.Machine

namespace Sys2Proof.Proofs

open Sys2Proof.Machine Sys2Proof.Claims

/-- Settles O2: the words written out are the encoder's, and the three others are 7 or more. -/
theorem commandWordsWrittenOut : Obligations.CommandWordsWrittenOut :=
  ⟨decode_encode .nop, decode_encode .frameEncode, decode_encode .frameDecode, decode_encode .lenEncode,
    decode_encode .lenDecode, decode_encode .crc32Gen, decode_encode .crc32Check, decode_reserved (by decide),
    decode_reserved (by decide), decode_reserved (by decide)⟩

/-- Settles O1: the decoder is the inverse of the encoder, whose seven words are 0 to 6. -/
theorem decoderMatchesWholeWord : Obligations.DecoderMatchesWholeWord :=
  ⟨decode_eq_ok_iff, rfl, rfl, rfl, rfl, rfl, rfl, rfl⟩

/-- Settles O50: the script turn and the host turn are the same host access, and the read's name is bound last. -/
theorem scriptLineIssuesItsTransaction : Obligations.ScriptLineIssuesItsTransaction := by
  intro s rest line e hs hl he
  have hhost (tr : Transaction) : step { s with schedule := .host s.script.engine tr :: rest } =
      .next (({ s with schedule := rest } : State).hostAccess s.script.engine e tr) :=
    step_host (s := { s with schedule := .host s.script.engine tr :: rest }) rfl he
  refine ⟨fun off d hst => ?_, fun size off name hst => ?_⟩
  · exact ⟨_, hhost _, step_script_write hs hl he hst⟩
  · refine ⟨_, _, hhost _, step_script_read hs hl he hst rfl, by simp, by simp, fun v hv => ?_, fun other hne => ?_⟩
    · rw [hv, Script.advance_lookup, Script.lookup_bind_same]
    · rw [Script.advance_lookup, Script.lookup_bind_other _ hne]

/-- Settles O51: BEQ and BNE are one branch of either sense. -/
theorem scriptBranchTestsItsMask : Obligations.ScriptBranchTestsItsMask := by
  intro s rest line name label k mask value v hs hl hv hk
  exact ⟨fun hst => step_script_beq hs hl hst hv hk, fun hst => step_script_bne hs hl hst hv hk⟩

/-- Settles O52: CMD, SETWIN and ACK are one register write each, WAITDONE a read and a branch, and LOADI a byte write
for each cell. -/
theorem pseudoInstructionsDoWhatTheySay : Obligations.PseudoInstructionsDoWhatTheySay := by
  refine ⟨fun s rest line e hs hl he => ⟨fun i hb hexp => ?cmd, fun size b0 b1 hb hexp => ?setWin, fun hexp => ?ack⟩,
    ?waitDone, ?loadI⟩
  case cmd =>
    obtain rfl := List.singleton_inj.1 hexp
    obtain ⟨t, hstep, ht⟩ := step_script_writeReg hs hl he (by decide) (by decide) rfl
    refine ⟨t, e.accept (encode i), hstep, ?_, rfl, decode_encode i, rfl, rfl⟩
    rw [ht, ← Engine.issue_idle hb]
    rfl
  case setWin =>
    obtain rfl := List.singleton_inj.1 hexp
    obtain ⟨t, hstep, ht⟩ := step_script_writeReg hs hl he (by decide) (by decide) rfl
    refine ⟨t, _, hstep, ht, ?_⟩
    exact (Engine.writeReg_input hb (r := .lenWinIn) rfl _).trans (by rw [InputRegs.store_lenWinIn_sum])
  case ack =>
    obtain rfl := List.singleton_inj.1 hexp
    obtain ⟨t, hstep, ht⟩ := step_script_writeReg hs hl he (by decide) (by decide) rfl
    refine ⟨t, { e with status := e.status.acknowledge 6#32 }, hstep, ht, ?_⟩
    rw [Status.acknowledge_six]
  case waitDone =>
    intro s rest e name label read branch hs he hexp hread hbranch hk
    obtain ⟨rfl, rfl⟩ : _ = read ∧ _ = branch := by simpa [Pseudo.expand] using hexp
    refine ⟨_, run_waitDone hs he hread hbranch rfl rfl hk, rfl, rfl, rfl, ?_, ?_, rfl⟩
    · exact Script.bind_lines _ _ _
    · exact Script.lookup_bind_same _ _ _
  case loadI =>
    intro s rest e i bytes hs he hb hi hl
    obtain ⟨t, hrun, hengines, hfaults, hschedule, hscript⟩ := run_loadI bytes hs he hb hi hl
    exact ⟨t, _, hrun, hengines, hfaults, hschedule, hscript, rfl, fun j hj => Memory.read_writeBytes _ _ _ hj,
      fun a ha => Memory.read_writeBytes_other _ _ _ ha⟩

end Sys2Proof.Proofs
end

section
/-! PROOFS. The life of a command: acceptance and rejection, the perform turn of the held word, the two checks that come
before every other one, and what a result depends on (40_control R87 to R95). -/

namespace Sys2Proof.Machine

/-! ## Acceptance and rejection (40_control R87, R88) -/

/-- A CMD write to a busy engine rejects the word, whatever it is. -/
theorem Engine.issue_busy {e : Engine} (hb : e.status.busy = true) (w : Word) : e.issue w = e.reject := by
  simp [Engine.issue, hb]

/-- A CMD write issues its word, busy or idle, and is no hazard. -/
theorem step_writeCmd {s : State} {n : Nat} {rest : List Turn} {e : Engine} {w : Word}
    (hs : s.schedule = .host n ⟨0x00004#19, .write (.word w)⟩ :: rest) (he : s.engines[n]? = some e) :
    step s = .next { Claims.without s rest with
      engines := s.engines.set n (e.issue w), response := some .written } :=
  step_writeReg hs he rfl (by decide) (Bool.and_false _)

/-! ## The perform turn of the held word (40_control R89) -/

/-- A perform turn of an engine with an enabled step runs the word the engine holds. -/
theorem step_perform_enabled {s : State} {n : Nat} {rest : List Turn} {e : Engine}
    (hs : s.schedule = .perform n :: rest) (he : s.engines[n]? = some e) (hb : e.status.busy = true)
    (hstuck : e.stuck = false) :
    step s = ({ Claims.without s rest with active := n } : State).runWord e.cmd := by
  rw [step_perform hs he, if_pos ((Engine.enabled_iff e).2 ⟨hb, hstuck⟩)]
  rfl

theorem State.runWord_of_decode {w : Word} {i : Instr} (h : decode w = .ok i) (s : State) :
    s.runWord w = exec i s := by
  simp only [State.runWord, h]

/-- A reserved word runs the rule of 40_control R95. -/
theorem State.runWord_reserved {w : Word} (h : 7 ≤ w.toNat) (s : State) :
    s.runWord w = s.performCommand reservedResult := by
  simp only [State.runWord, decode_reserved h, execReserved]

/-! ## The state after a perform step, in the terms of the statements -/

theorem State.concluded_success (s : State) (e : Engine) (regs : ResultRegs) (out : List Byte) :
    s.concluded e (.success regs out) = Claims.succeeded s e regs out := rfl

theorem State.concluded_raise (s : State) (e : Engine) (cause : ErrorCause) (crc : Word) :
    s.concluded e (.raise cause crc) = Claims.failed s e cause.kind cause crc := rfl

theorem State.concluded_uninitRead (s : State) (e : Engine) :
    s.concluded e .uninitRead = { s with
      engines := s.engines.set s.active { e with stuck := true }
      faults := { s.faults with uninitRead := true }
      draws := s.draws + 1 } := rfl

/-! ## The checks of the commands that read IBUF (40_control R92, R93) -/

/-- The rule of a command that reads IBUF is a body behind the two shared checks. -/
theorem ruleOf_readsIbuf {i : Instr} (h : Claims.readsIbuf i) (o : Operands) :
    ∃ body, ruleOf i o = o.withInput body := by
  rcases h with rfl | rfl | rfl | rfl <;> exact ⟨_, rfl⟩

/-- The range of IN_LEN is checked before anything is read. -/
theorem Operands.withInput_range {o : Operands} (h : Config.ibufBytes < o.regs.inLen.toNat)
    (body : List Byte → CommandResult) : o.withInput body = .raise .inLenRange 0#32 :=
  if_pos h

/-- A cell below a legal IN_LEN with no value stops the command before its body. -/
theorem Operands.withInput_unwritten {o : Operands} {k : Nat} (hlen : o.regs.inLen.toNat ≤ Config.ibufBytes)
    (hk : k < o.regs.inLen.toNat) (hnone : Memory.read o.ibuf k = none) (body : List Byte → CommandResult) :
    o.withInput body = .uninitRead := by
  have hread : Memory.readBytes o.ibuf 0 o.regs.inLen.toNat = none :=
    (Memory.readBytes_eq_none _ _ _).2 ⟨k, hk, by rwa [Nat.zero_add]⟩
  rw [Operands.withInput, if_neg (Nat.not_lt.2 hlen), hread]

/-! ## What a result depends on (40_control R89) -/

theorem Engine.operands_of_sameOperands {e e' : Engine} (h : Claims.sameOperands e e') (draw : Nat) :
    e.operands draw = e'.operands draw := by
  obtain ⟨hinputs, hibuf, hhazard⟩ := h
  simp only [Engine.operands, Engine.seenRegs, Engine.seenIbuf, hinputs, hibuf, hhazard]

/-- Two engines concluded with the same result hold the same results, OBUF, ERR and CAUSE, or are both stopped. -/
theorem Engine.conclude_agree (e e' : Engine) (r : CommandResult) :
    ((e.conclude r).results = (e'.conclude r).results ∧ (e.conclude r).obuf = (e'.conclude r).obuf ∧
        (e.conclude r).status.err = (e'.conclude r).status.err ∧
        (e.conclude r).status.cause = (e'.conclude r).status.cause) ∨
      (e.conclude r = { e with stuck := true } ∧ e'.conclude r = { e' with stuck := true }) := by
  cases r with
  | success regs out => exact .inl ⟨rfl, rfl, rfl, rfl⟩
  | raise cause crc => exact .inl ⟨rfl, rfl, rfl, rfl⟩
  | uninitRead => exact .inr ⟨rfl, rfl⟩

end Sys2Proof.Machine

namespace Sys2Proof.Proofs

open Sys2Proof.Machine Sys2Proof.Claims

/-- Settles O3: the turn runs the held word, and the word is the command's. -/
theorem stepRunsTheHeldCommand : Obligations.StepRunsTheHeldCommand := by
  intro s n rest e i hs he hb hstuck hdecode
  rw [step_perform_enabled hs he hb hstuck, State.runWord_of_decode hdecode]

/-- Settles O7: the turn runs the held word, and a reserved word's rule raises BAD_COMMAND(RESERVED_COMMAND). -/
theorem reservedWordCompletesWithBadCommand : Obligations.ReservedWordCompletesWithBadCommand := by
  intro s n rest e hs he hb hstuck hword
  refine ⟨?_, rfl⟩
  rw [step_perform_enabled hs he hb hstuck, State.runWord_reserved hword,
    performCommand_eq (s := { without s rest with active := n }) he, reservedResult, State.concluded_raise]
  rfl

/-- Settles O8: an engine that is idle or stopped has no enabled step. -/
theorem engineWithoutEnabledStepDoesNothing : Obligations.EngineWithoutEnabledStepDoesNothing := by
  intro s n rest e hs he hidle
  have hen : e.enabled = false := by
    rcases hidle with h | h <;> simp [Engine.enabled, h]
  rw [step_perform hs he, hen, if_neg Bool.false_ne_true]
  rfl

/-- Settles O10: the write issues its word, and an idle engine accepts it. -/
theorem cmdWriteWhileIdleAccepts : Obligations.CmdWriteWhileIdleAccepts := by
  intro s n rest e w hs he hb
  rw [step_writeCmd hs he, Engine.issue_idle hb, Engine.accept, Status.accepted]

/-- Settles O11: the write issues its word, and a busy engine rejects it. -/
theorem cmdWriteWhileBusyIsRejected : Obligations.CmdWriteWhileBusyIsRejected := by
  intro s n rest e w hs he hb
  rw [step_writeCmd hs he, Engine.issue_busy hb, Engine.reject]

/-- Settles O16: the rule of NOP is a success with zero results and no output. -/
theorem nopCompletesWithNoResult : Obligations.NopCompletesWithNoResult := by
  intro s e he
  rw [exec_eq he, ruleOf, nopResult, State.concluded_success, ResultRegs.zero]

/-- Settles O33: the command's rule is a body behind the range check. -/
theorem inLenRangeComesFirst : Obligations.InLenRangeComesFirst := by
  intro i s e hi he hlen
  obtain ⟨body, hrule⟩ := ruleOf_readsIbuf hi (e.operands s.draws)
  rw [exec_eq he, hrule, Operands.withInput_range hlen, State.concluded_raise, ErrorCause.kind]

/-- Settles O34: the command's rule is a body behind the unwritten-input check. -/
theorem unwrittenInputStopsTheCommand : Obligations.UnwrittenInputStopsTheCommand := by
  intro i s e k hi he hlen hk hnone
  obtain ⟨body, hrule⟩ := ruleOf_readsIbuf hi (e.operands s.draws)
  rw [exec_eq he, hrule, Operands.withInput_unwritten hlen hk hnone, State.concluded_uninitRead]

/-- Settles O37: equal operands give the rule's result equal, and both engines are concluded with it. -/
theorem resultDependsOnOperandsOnly : Obligations.ResultDependsOnOperandsOnly := by
  intro i s s2 e e2 he he2 hsame hdraws
  have hop : e2.operands s2.draws = e.operands s.draws := by
    rw [Engine.operands_of_sameOperands hsame, hdraws]
  have hexec2 := exec_eq he2 i
  rw [hop] at hexec2
  exact ⟨_, _, _, _, exec_eq he i, hexec2, State.concluded_active_engine he _, State.concluded_active_engine he2 _,
    Engine.conclude_agree e e2 _⟩

end Sys2Proof.Proofs
end

section
/-! PROOFS. The length codec: a perform step of LEN_ENCODE and LEN_DECODE by what `lenEnc` and `lenDec` answer, and what
`lenDec` reads back of a written field (41_length_codec R96 to R101). -/

namespace Sys2Proof.Machine

/-! ## LEN_ENCODE, one lemma for each kind of answer of `lenEnc` (41_length_codec R99) -/

section LenEncode

variable {s : State} {e : Engine} (he : s.engines[s.active]? = some e)

include he

theorem exec_lenEncode_of_error {cause : ErrorCause}
    (h : lenEnc (e.seenRegs s.draws).lenIn.toNat (e.seenRegs s.draws).winSize.toNat = .error cause) :
    exec .lenEncode s = .next (Claims.failed s e cause.kind cause 0#32) := by
  have hrule : lenEncodeResult (e.operands s.draws) = .raise cause 0#32 := by
    simp only [lenEncodeResult, Engine.operands, h]
  rw [exec_eq he, ruleOf, hrule, State.concluded_raise]

theorem exec_lenEncode_of_one {b0 : Byte}
    (h : lenEnc (e.seenRegs s.draws).lenIn.toNat (e.seenRegs s.draws).winSize.toNat = .ok (.one b0)) :
    exec .lenEncode s = .next (Claims.succeeded s e ⟨0#32, 0#16, 0#32, 0#32, b0, 0#8, 1#2, 0#32⟩ []) := by
  have hrule : lenEncodeResult (e.operands s.draws) =
      .success ⟨0#32, 0#16, 0#32, 0#32, b0, 0#8, 1#2, 0#32⟩ [] := by
    simp only [lenEncodeResult, Engine.operands, h, ResultRegs.zero]
  rw [exec_eq he, ruleOf, hrule, State.concluded_success]

theorem exec_lenEncode_of_two {b0 b1 : Byte}
    (h : lenEnc (e.seenRegs s.draws).lenIn.toNat (e.seenRegs s.draws).winSize.toNat = .ok (.two b0 b1)) :
    exec .lenEncode s = .next (Claims.succeeded s e ⟨0#32, 0#16, 0#32, 0#32, b0, b1, 2#2, 0#32⟩ []) := by
  have hrule : lenEncodeResult (e.operands s.draws) =
      .success ⟨0#32, 0#16, 0#32, 0#32, b0, b1, 2#2, 0#32⟩ [] := by
    simp only [lenEncodeResult, Engine.operands, h, ResultRegs.zero]
  rw [exec_eq he, ruleOf, hrule, State.concluded_success]

end LenEncode

/-! ## LEN_DECODE, one lemma for each kind of answer of `lenDec` (41_length_codec R100) -/

section LenDecode

variable {s : State} {e : Engine} (he : s.engines[s.active]? = some e)

include he

theorem exec_lenDecode_of_error {cause : ErrorCause}
    (h : lenDec (e.seenRegs s.draws).winB0 (e.seenRegs s.draws).winB1 (e.seenRegs s.draws).winSize.toNat =
      .error cause) :
    exec .lenDecode s = .next (Claims.failed s e cause.kind cause 0#32) := by
  have hrule : lenDecodeResult (e.operands s.draws) = .raise cause 0#32 := by
    simp only [lenDecodeResult, Engine.operands, h]
  rw [exec_eq he, ruleOf, hrule, State.concluded_raise]

theorem exec_lenDecode_of_ok {d : DecodedLength}
    (h : lenDec (e.seenRegs s.draws).winB0 (e.seenRegs s.draws).winB1 (e.seenRegs s.draws).winSize.toNat = .ok d) :
    exec .lenDecode s = .next (Claims.succeeded s e
      ⟨0#32, 0#16, 0#32, BitVec.ofNat 32 d.length, 0#8, 0#8, BitVec.ofNat 2 d.consumed, 0#32⟩ []) := by
  have hrule : lenDecodeResult (e.operands s.draws) =
      .success ⟨0#32, 0#16, 0#32, BitVec.ofNat 32 d.length, 0#8, 0#8, BitVec.ofNat 2 d.consumed, 0#32⟩ [] := by
    simp only [lenDecodeResult, Engine.operands, h, ResultRegs.zero]
  rw [exec_eq he, ruleOf, hrule, State.concluded_success]

end LenDecode

/-! ## Reading a written field back (41_length_codec R101) -/

/-- A one-byte field decodes whatever the second byte of the window holds. -/
theorem lenDec_ofNat_one {v : Nat} (h : v ≤ 127) (b1 : Byte) : lenDec (BitVec.ofNat 8 v) b1 2 = .ok ⟨v, 1⟩ := by
  have hv : (BitVec.ofNat 8 v).toNat = v := Nat.mod_eq_of_lt (by omega)
  rw [lenDec_one (by omega), hv]

/-- The low seven bits under the mark, and the bits above them, put the length together again. -/
theorem lenDec_ofNat_two {v : Nat} (h : v ≤ 32767) :
    lenDec (BitVec.ofNat 8 (128 + v % 128)) (BitVec.ofNat 8 (v / 128)) 2 = .ok ⟨v, 2⟩ := by
  have h0 : (BitVec.ofNat 8 (128 + v % 128)).toNat = 128 + v % 128 := Nat.mod_eq_of_lt (by omega)
  have h1 : (BitVec.ofNat 8 (v / 128)).toNat = v / 128 := Nat.mod_eq_of_lt (by omega)
  rw [lenDec_two (by omega), h0, h1, Nat.add_sub_cancel_left, Nat.mod_add_div]

end Sys2Proof.Machine

namespace Sys2Proof.Proofs

open Sys2Proof.Machine Sys2Proof.Claims

/-- Settles O17: the rule follows `lenEnc`, which checks the window first and then splits at 127 and 32767. -/
theorem lenEncodeResult : Obligations.LenEncodeResult := by
  rintro s e _ _ he rfl rfl
  refine ⟨fun hws => ?window, fun hws hv => ?oneByte, fun hws hv hmax => ?twoBytes, fun hws hv => ?tooLong, rfl, rfl⟩
  case window => exact exec_lenEncode_of_error he (lenEnc_window (BitVec.toNat_ne.1 hws))
  case oneByte => exact exec_lenEncode_of_one he (by rw [hws]; exact lenEnc_one hv)
  case twoBytes => exact exec_lenEncode_of_two he (by rw [hws]; exact lenEnc_two hv hmax)
  case tooLong => exact exec_lenEncode_of_error he (by rw [hws]; exact lenEnc_tooLong hv)

/-- Settles O18: the rule follows `lenDec`, which checks the window first and then the mark of the first byte. -/
theorem lenDecodeResult : Obligations.LenDecodeResult := by
  rintro s e _ _ _ he rfl rfl rfl
  refine ⟨fun hws => ?window, fun hws hb0 => ?oneByte, fun hws hb0 => ?twoBytes, rfl⟩
  case window => exact exec_lenDecode_of_error he (lenDec_window (BitVec.toNat_ne.1 hws))
  case oneByte => exact exec_lenDecode_of_ok he (by rw [hws]; exact lenDec_one hb0)
  case twoBytes => exact exec_lenDecode_of_ok he (by rw [hws]; exact lenDec_two hb0)

/-- Settles O19: each form of the field is read back in its range, and `80 00` is read by the two-byte form. -/
theorem lengthFieldRoundTrip : Obligations.LengthFieldRoundTrip := by
  refine ⟨fun v hv => ?_, lenDec_two (by decide), lenEnc_one (Nat.zero_le _)⟩
  rcases Nat.lt_or_ge v 128 with h | h
  · exact .inl ⟨_, lenEnc_one (by omega), lenDec_ofNat_one (by omega)⟩
  · exact .inr ⟨_, _, lenEnc_two h hv, lenDec_ofNat_two hv⟩

end Sys2Proof.Proofs
end

section
/-! PROOFS. The checksum: byte strings that differ in one byte have different CRC-32s, what the two checksum commands
and FRAME_DECODE answer of the bytes they read, and single-bit flips (42_checksum R102 to R108). -/

namespace Sys2Proof.Machine

/-! ## CRC-32 separates strings that differ in one byte (42_checksum R102)

Every round can be undone: the polynomial sets bit 31 and the shift clears it, so that bit tells whether the round
subtracted the polynomial. -/

/-- Bit 31 after a round is the bit that was shifted out. -/
theorem crcRound_bit31 (x : Word) : (crcRound x).getLsbD 31 = x.getLsbD 0 := by
  unfold crcRound
  split <;> simp_all

/-- A round is the shift and the polynomial for the bit shifted out. -/
theorem crcRound_xor_polynomial (x : Word) :
    crcRound x ^^^ (if (crcRound x).getLsbD 31 then 0xEDB88320#32 else 0#32) = x >>> 1 := by
  rw [crcRound_bit31, crcRound]
  split
  · rw [BitVec.xor_assoc, BitVec.xor_self, BitVec.xor_zero]
  · exact BitVec.xor_zero

theorem crcRound_injective : Function.Injective crcRound := by
  intro x y h
  have hlow : x.getLsbD 0 = y.getLsbD 0 := by rw [← crcRound_bit31, h, crcRound_bit31]
  have hshift : x >>> 1 = y >>> 1 := by rw [← crcRound_xor_polynomial, h, crcRound_xor_polynomial]
  refine BitVec.eq_of_getLsbD_eq fun i _ => ?_
  cases i with
  | zero => exact hlow
  | succ i => simpa [Nat.add_comm] using congrArg (BitVec.getLsbD · i) hshift

theorem crcRounds_injective (n : Nat) : Function.Injective (crcRounds n) := by
  induction n with
  | zero => exact fun _ _ h => h
  | succ n ih => exact ih.comp crcRound_injective

theorem crcByte_injective_left (b : Byte) : Function.Injective (crcByte · b) :=
  fun _ _ h => (BitVec.xor_left_inj _).1 (crcRounds_injective 8 h)

theorem crcByte_injective_right (crc : Word) : Function.Injective (crcByte crc) := by
  intro b b' h
  have hwide : b.setWidth 32 = b'.setWidth 32 := (BitVec.xor_right_inj _).1 (crcRounds_injective 8 h)
  apply BitVec.eq_of_toNat_eq
  rw [← BitVec.toNat_setWidth_of_le (by decide : 8 ≤ 32), hwide, BitVec.toNat_setWidth_of_le (by decide)]

theorem foldl_crcByte_injective (tail : List Byte) : Function.Injective (tail.foldl crcByte ·) := by
  induction tail with
  | nil => exact fun _ _ h => h
  | cons b tail ih => exact ih.comp (crcByte_injective_left b)

/-- The byte in one place is determined by the checksum and the bytes in all other places. -/
theorem crc32_append_cons_inj (head tail : List Byte) (b b' : Byte) :
    crc32 (head ++ b :: tail) = crc32 (head ++ b' :: tail) ↔ b = b' := by
  simp only [crc32, List.foldl_append, List.foldl_cons, BitVec.xor_left_inj,
    (foldl_crcByte_injective tail).eq_iff, (crcByte_injective_right _).eq_iff]

/-- Changing one byte of a message changes its checksum. -/
theorem crc32_modify_ne {m : List Byte} {i : Nat} {g : Byte → Byte} (hg : ∀ b, g b ≠ b) (hi : i < m.length) :
    crc32 (m.modify i g) ≠ crc32 m := by
  obtain ⟨head, b, tail, hm, -, hmodify⟩ := List.exists_of_modify g hi
  rw [hmodify, hm, Ne, crc32_append_cons_inj]
  exact hg b

/-! ## The trailer separates its bytes (42_checksum R104, R105) -/

/-- Four bytes read as a word are packed back. -/
theorem packLe32_leWord {t : List Byte} (h : t.length = 4) : packLe32 (leWord t) = t := by
  obtain ⟨a, b, c, d, rfl⟩ := List.length_eq_four.1 h
  rw [packLe32_eq, leWord_four_toNat]
  simp only [List.cons.injEq, and_true]
  refine ⟨?_, ?_, ?_, ?_⟩ <;> apply BitVec.eq_of_toNat_eq <;> simp only [BitVec.toNat_ofNat] <;> omega

/-- Changing one byte of a trailer changes its word. -/
theorem leWord_modify_ne {t : List Byte} {i : Nat} {g : Byte → Byte} (hg : ∀ b, g b ≠ b) (ht : t.length = 4)
    (hi : i < t.length) : leWord (t.modify i g) ≠ leWord t := by
  intro h
  have hsame : t.modify i g = t := by
    rw [← packLe32_leWord ((List.length_modify g t i).trans ht), h, packLe32_leWord ht]
  have hbyte : (t.modify i g)[i]? = t[i]? := by rw [hsame]
  rw [List.getElem?_modify_eq, List.getElem?_eq_getElem hi] at hbyte
  exact hg _ (Option.some.inj hbyte)

/-! ## A changed byte is detected (42_checksum R105, R108) -/

theorem crcOk_iff (f : List Byte) : crcOk f = true ↔ crc32 (message f) = trailer f := beq_iff_eq

/-- A byte changed in the message leaves the trailer, one changed in the trailer leaves the message. -/
theorem crcOk_modify {f : List Byte} {i : Nat} {g : Byte → Byte} (hg : ∀ b, g b ≠ b) (hok : crcOk f = true)
    (hlen : 4 ≤ f.length) (hi : i < f.length) : crcOk (f.modify i g) = false := by
  rw [crcOk_iff] at hok
  rw [Bool.eq_false_iff, Ne, crcOk_iff]
  unfold message trailer at *
  rw [List.length_modify, List.take_modify]
  rcases Nat.lt_or_ge i (f.length - 4) with hmessage | htrailer
  · rw [List.drop_modify_of_lt _ _ _ _ hmessage, ← hok]
    exact crc32_modify_ne hg (by rw [List.length_take]; omega)
  · have hkept : (f.take (f.length - 4)).modify i g = f.take (f.length - 4) :=
      List.modify_eq_self (by rw [List.length_take]; omega)
    rw [List.drop_modify_of_ge _ _ _ _ htrailer, hkept, hok]
    exact (leWord_modify_ne hg (by rw [List.length_drop]; omega) (by rw [List.length_drop]; omega)).symm

/-- A byte with one bit flipped is another byte. -/
theorem flip_ne (k : Fin 8) (b : Byte) : b ^^^ (1#8 <<< k.val) ≠ b := by
  have hbit : ∀ k : Fin 8, 1#8 <<< k.val ≠ 0#8 := by decide
  intro h
  exact hbit k ((BitVec.xor_right_inj b).1 (h.trans BitVec.xor_zero.symm))

@[simp] theorem flipBit_length (f : List Byte) (j : Nat) : (Claims.flipBit f j).length = f.length :=
  List.length_modify _ _ _

/-- A valid string with one bit flipped is not valid. -/
theorem crcOk_flipBit {f : List Byte} {j : Nat} (hok : crcOk f = true) (hlen : 4 ≤ f.length)
    (hj : j < 8 * f.length) : crcOk (Claims.flipBit f j) = false :=
  crcOk_modify (flip_ne ⟨j % 8, Nat.mod_lt j (by decide)⟩) hok hlen (by omega)

/-! ## The commands on the bytes they read (42_checksum R106, R107; 43_frame_codec R113) -/

/-- The body of a command that reads IBUF runs on the bytes the pending command sees there. -/
theorem Operands.withInput_of_inputIs {e : Engine} {draw : Nat} {bytes : List Byte}
    (h : Claims.inputIs e draw bytes) (body : List Byte → CommandResult) :
    (e.operands draw).withInput body = body bytes := by
  obtain ⟨hlen, hmax, hread⟩ := h
  exact Operands.withInput_eq hlen hmax hread body

/-- The checksum is checked right after the length, before any field is read (43_frame_codec R114). -/
theorem decodeFrame_of_mismatch {f : List Byte} (hlen : 8 ≤ f.length) (hok : crcOk f = false) :
    decodeFrame f = .raise .crcMismatch (crc32 (message f)) := by
  unfold decodeFrame
  rw [if_neg (Nat.not_lt.2 hlen), if_pos hok]

section Input

variable {s : State} {e : Engine} {f : List Byte} (he : s.engines[s.active]? = some e)
  (hf : Claims.inputIs e s.draws f)

include he hf

theorem exec_crc32Gen_of_input :
    exec .crc32Gen s = .next (Claims.succeeded s e ⟨0#32, 0#16, 0#32, 0#32, 0#8, 0#8, 0#2, crc32 f⟩ []) := by
  rw [exec_eq he, ruleOf, crc32GenResult, Operands.withInput_of_inputIs hf, State.concluded_success, ResultRegs.zero]

theorem exec_crc32Check_of_short (hlen : f.length < 4) :
    exec .crc32Check s = .next (Claims.failed s e .truncatedInput .checkShort 0#32) := by
  rw [exec_eq he, ruleOf, crc32CheckResult, Operands.withInput_of_inputIs hf, if_pos hlen, State.concluded_raise,
    ErrorCause.kind]

theorem exec_crc32Check_of_ok (hlen : 4 ≤ f.length) (hok : crcOk f = true) :
    exec .crc32Check s =
      .next (Claims.succeeded s e ⟨0#32, 0#16, 0#32, 0#32, 0#8, 0#8, 0#2, crc32 (message f)⟩ []) := by
  rw [exec_eq he, ruleOf, crc32CheckResult, Operands.withInput_of_inputIs hf, if_neg (Nat.not_lt.2 hlen), if_pos hok,
    State.concluded_success, ResultRegs.zero]

theorem exec_crc32Check_of_mismatch (hlen : 4 ≤ f.length) (hok : crcOk f = false) :
    exec .crc32Check s = .next (Claims.failed s e .invalidChecksum .crcMismatch (crc32 (message f))) := by
  rw [exec_eq he, ruleOf, crc32CheckResult, Operands.withInput_of_inputIs hf, if_neg (Nat.not_lt.2 hlen),
    if_neg (Bool.eq_false_iff.1 hok), State.concluded_raise, ErrorCause.kind]

theorem exec_frameDecode_of_mismatch (hlen : 8 ≤ f.length) (hok : crcOk f = false) :
    exec .frameDecode s = .next (Claims.failed s e .invalidChecksum .crcMismatch (crc32 (message f))) := by
  rw [exec_eq he, ruleOf, frameDecodeResult, Operands.withInput_of_inputIs hf,
    decodeFrame_of_mismatch hlen hok, State.concluded_raise, ErrorCause.kind]

end Input

end Sys2Proof.Machine

namespace Sys2Proof.Proofs

open Sys2Proof.Machine Sys2Proof.Claims

/-- Settles O20: the rule is the checksum of the bytes read, behind the range check. -/
theorem crcGenResult : Obligations.CrcGenResult := by
  refine ⟨fun s e m he hm => exec_crc32Gen_of_input he hm, fun s e he hlen => ?range, rfl⟩
  case range => exact inLenRangeComesFirst .crc32Gen s e (by simp [readsIbuf]) he hlen

/-- Settles O21: the rule checks the range, then the length, and then compares the checksum with the trailer. -/
theorem crcCheckResult : Obligations.CrcCheckResult := by
  refine ⟨fun s e he hlen => ?range, fun s e f he hf hlen => exec_crc32Check_of_short he hf hlen,
    fun s e m c he hf => ⟨fun hc => ?matching, fun hc => ?mismatch⟩, rfl, rfl, rfl⟩
  case range => exact inLenRangeComesFirst .crc32Check s e (by simp [readsIbuf]) he hlen
  case matching =>
    have hexec := exec_crc32Check_of_ok he hf (by simp) (by rw [crcOk_append, hc, decide_eq_true rfl])
    rwa [message_append] at hexec
  case mismatch =>
    have hexec := exec_crc32Check_of_mismatch he hf (by simp) (by rw [crcOk_append, decide_eq_false hc.symm])
    rwa [message_append] at hexec

/-- Settles O32: the flipped string is not valid, and both commands answer that with CRC_MISMATCH. -/
theorem singleBitFlipIsDetected : Obligations.SingleBitFlipIsDetected := by
  intro s e f j he hok hj hf
  refine ⟨fun hlen => ?decode, fun hlen => ?check⟩
  case decode =>
    exact exec_frameDecode_of_mismatch he hf (by rwa [flipBit_length]) (crcOk_flipBit hok (by omega) hj)
  case check =>
    exact exec_crc32Check_of_mismatch he hf (by rwa [flipBit_length]) (crcOk_flipBit hok hlen hj)

/-- Settles O22, by evaluating the nine checksums. -/
theorem crcOfTheGivenMessages : Obligations.CrcOfTheGivenMessages := by
  unfold Obligations.CrcOfTheGivenMessages
  decide +kernel

/-- Settles O23: the laws of the four packers. -/
theorem packersAreInverse : Obligations.PackersAreInverse :=
  ⟨packBe16_eq, be16_toNat, packLe32_eq, leWord_four_toNat⟩

end Sys2Proof.Proofs
end

section
/-! PROOFS. The frame codec: the wire form of blocks and how the parser reads it back, what the serializer writes, what
FRAME_ENCODE and FRAME_DECODE answer of the bytes they read, and the two round trips (43_frame_codec R109 to R119). -/

namespace Sys2Proof.Claims

open Sys2Proof.Machine

/-! ## The wire form of blocks (30_encoding R71 to R76) -/

@[simp] theorem wireField_length (long : Bool) (n : Nat) :
    (wireField long n).length = if long then 2 else 1 := by
  cases long <;> rfl

@[simp] theorem WireBlock.bytes_length (w : WireBlock) :
    w.bytes.length = 1 + (if w.long then 2 else 1) + w.block.payload.length := by
  simp only [WireBlock.bytes, List.length_cons, List.length_append, wireField_length]
  omega

@[simp] theorem wireSection_nil : wireSection [] = [] := rfl

@[simp] theorem wireSection_cons (w : WireBlock) (ws : List WireBlock) :
    wireSection (w :: ws) = w.bytes ++ wireSection ws := rfl

@[simp] theorem encoded_cons (b : Block) (blocks : List Block) :
    encoded (b :: blocks) = ⟨decide (128 ≤ b.payload.length), b⟩ :: encoded blocks := rfl

@[simp] theorem wireFrame_length (type : Half) (sect : List Byte) :
    (wireFrame type sect).length = 8 + sect.length := by
  simp only [wireFrame, wireBody, List.length_append, packBe16_length, packLe32_length]
  omega

/-! ## What the serializer writes (43_frame_codec R110, R111) -/

/-- The encoder's field is the canonical one. -/
theorem lenEnc_wireField {n : Nat} (h : n ≤ 32767) :
    ∃ field, lenEnc n 2 = .ok field ∧ field.bytes = wireField (decide (128 ≤ n)) n := by
  rcases Nat.lt_or_ge n 128 with hn | hn
  · exact ⟨_, lenEnc_one (by omega), by rw [decide_eq_false (by omega)]; rfl⟩
  · exact ⟨_, lenEnc_two hn h, by rw [decide_eq_true hn]; rfl⟩

theorem serializeBlocks_eq {blocks : List Block} (h : ∀ b ∈ blocks, b.payload.length ≤ 32767) :
    serializeBlocks blocks = .ok (wireSection (encoded blocks)) := by
  induction blocks with
  | nil => rfl
  | cons b blocks ih =>
    obtain ⟨hb, hblocks⟩ := List.forall_mem_cons.1 h
    obtain ⟨field, henc, hbytes⟩ := lenEnc_wireField hb
    simp only [serializeBlocks, Config.lenWindow, henc, ih hblocks, hbytes, encoded_cons, wireSection_cons,
      WireBlock.bytes, List.cons_append]

/-- N is the length of the section the encoder writes (43_frame_codec R110). -/
theorem sectionSize_eq {blocks : List Block} (h : ∀ b ∈ blocks, b.payload.length ≤ 32767) :
    sectionSize blocks = (wireSection (encoded blocks)).length :=
  (serializeBlocks_length (serializeBlocks_eq h)).symm

@[simp] theorem sectionSize_cons (b : Block) (blocks : List Block) :
    sectionSize (b :: blocks) = b.wireSize + sectionSize blocks := rfl

/-! ## Canonical length fields (30_encoding R75, R76, R78) -/

theorem WireBlock.legal_payload {w : WireBlock} (h : w.legal) : w.block.payload.length ≤ 32767 := by
  unfold WireBlock.legal at h
  split at h <;> omega

theorem legal_payloads {ws : List WireBlock} (h : ∀ w ∈ ws, w.legal) :
    ∀ b ∈ ws.map WireBlock.block, b.payload.length ≤ 32767 :=
  List.forall_mem_map.2 fun w hw => WireBlock.legal_payload (h w hw)

/-- No legal form of a block is shorter than the encoder's (30_encoding R73). -/
theorem WireBlock.wireSize_le {w : WireBlock} (h : w.legal) : w.block.wireSize ≤ w.bytes.length := by
  unfold WireBlock.legal at h
  rw [WireBlock.bytes_length, Block.wireSize, lengthWidth]
  split_ifs at h ⊢ <;> omega

/-- The encoder saves a byte exactly on a block that is not canonical: a two-byte field of a length below 128. -/
theorem WireBlock.canonical_iff_wireSize {w : WireBlock} (h : w.legal) :
    w.canonical ↔ w.block.wireSize = w.bytes.length := by
  unfold WireBlock.legal at h
  rw [WireBlock.canonical, WireBlock.bytes_length, Block.wireSize, lengthWidth]
  cases hlong : w.long with
  | true =>
    rw [eq_comm, decide_eq_true_iff, if_pos rfl]
    split_ifs <;> omega
  | false =>
    rw [hlong, if_neg Bool.false_ne_true] at h
    rw [eq_comm, decide_eq_false_iff_not, if_pos h, if_neg Bool.false_ne_true]
    omega

theorem sectionSize_le {ws : List WireBlock} (h : ∀ w ∈ ws, w.legal) :
    sectionSize (ws.map WireBlock.block) ≤ (wireSection ws).length := by
  induction ws with
  | nil => exact Nat.le_refl 0
  | cons w ws ih =>
    obtain ⟨hw, hws⟩ := List.forall_mem_cons.1 h
    rw [List.map_cons, sectionSize_cons, wireSection_cons, List.length_append]
    exact Nat.add_le_add (WireBlock.wireSize_le hw) (ih hws)

/-- A section as short as the encoder's has no field that is not canonical. -/
theorem canonical_of_sectionSize {ws : List WireBlock} (h : ∀ w ∈ ws, w.legal)
    (hsize : sectionSize (ws.map WireBlock.block) = (wireSection ws).length) : ∀ w ∈ ws, w.canonical := by
  induction ws with
  | nil => exact fun w hw => absurd hw List.not_mem_nil
  | cons w ws ih =>
    obtain ⟨hw, hws⟩ := List.forall_mem_cons.1 h
    have hfirst := WireBlock.wireSize_le hw
    have hrest := sectionSize_le hws
    rw [List.map_cons, sectionSize_cons, wireSection_cons, List.length_append] at hsize
    exact List.forall_mem_cons.2 ⟨(WireBlock.canonical_iff_wireSize hw).2 (by omega), ih hws (by omega)⟩

/-- The encoder writes canonical blocks as they were. -/
theorem encoded_of_canonical {ws : List WireBlock} (h : ∀ w ∈ ws, w.canonical) :
    encoded (ws.map WireBlock.block) = ws := by
  induction ws with
  | nil => rfl
  | cons w ws ih =>
    obtain ⟨hw, hws⟩ := List.forall_mem_cons.1 h
    rw [List.map_cons, encoded_cons, ih hws, ← show w.long = _ from hw]

@[simp] theorem encoded_length (blocks : List Block) : (encoded blocks).length = blocks.length := List.length_map _

@[simp] theorem encoded_map_block (blocks : List Block) : (encoded blocks).map WireBlock.block = blocks := by
  simp [encoded, Function.comp_def]

/-- The encoder's blocks are legal. -/
theorem encoded_legal {blocks : List Block} (h : ∀ b ∈ blocks, b.payload.length ≤ 32767) :
    ∀ w ∈ encoded blocks, w.legal := by
  refine List.forall_mem_map.2 fun b hb => ?_
  have hmax := h b hb
  simp only [WireBlock.legal, decide_eq_true_iff]
  split_ifs <;> omega

/-- Legal blocks whose section fits 16 bits are a packet that fits. -/
theorem fits_of_legal {ws : List WireBlock} (h : ∀ w ∈ ws, w.legal) (hlen : (wireSection ws).length ≤ 65535) :
    fits (ws.map WireBlock.block) := by
  refine ⟨legal_payloads h, ?_⟩
  rw [← sectionSize_eq (legal_payloads h)]
  exact Nat.le_trans (sectionSize_le h) hlen

/-- The frame the encoder writes for the blocks is their frame exactly if they are canonical. -/
theorem wireFrame_encoded_eq_iff {ws : List WireBlock} (h : ∀ w ∈ ws, w.legal) (type : Half) :
    wireFrame type (wireSection (encoded (ws.map WireBlock.block))) = wireFrame type (wireSection ws) ↔
      ∀ w ∈ ws, w.canonical := by
  constructor
  · intro heq
    have hlen := congrArg List.length heq
    rw [wireFrame_length, wireFrame_length, Nat.add_left_cancel_iff, ← sectionSize_eq (legal_payloads h)] at hlen
    exact canonical_of_sectionSize h hlen
  · intro hcanonical
    rw [encoded_of_canonical hcanonical]

end Sys2Proof.Claims

namespace Sys2Proof.Machine

open Sys2Proof.Claims

/-! ## Parsing the wire form (43_frame_codec R115) -/

/-- A written length field, whatever follows it, fills the first bytes of the length window and decodes. -/
theorem lenDec_wireField {long : Bool} {n : Nat} (hn : n ≤ if long then 32767 else 127) {tail : List Byte}
    (htail : tail ≠ []) :
    ∃ b0 b1 rest, wireField long n ++ tail = b0 :: b1 :: rest ∧
      lenDec b0 b1 2 = .ok ⟨n, (wireField long n).length⟩ := by
  cases long with
  | true => exact ⟨_, _, tail, rfl, lenDec_ofNat_two hn⟩
  | false =>
    obtain ⟨b1, rest, rfl⟩ := List.exists_cons_of_ne_nil htail
    exact ⟨_, b1, rest, rfl, lenDec_ofNat_one hn b1⟩

/-- A kind and a length field: the payload must end before the trailer, and the parse goes on behind it. -/
theorem parseBlocks_field (k : Byte) {long : Bool} {n : Nat} (hn : n ≤ if long then 32767 else 127)
    {tail : List Byte} (htail : 4 ≤ tail.length) :
    parseBlocks 0 (k :: (wireField long n ++ tail)) =
      if tail.length < 4 + n then .error .blockOverrun
      else (parseBlocks 0 (tail.drop n)).map (⟨k, tail.take n⟩ :: ·) := by
  obtain ⟨b0, b1, rest, hsplit, hdec⟩ := lenDec_wireField hn (List.ne_nil_of_length_pos (by omega : 0 < tail.length))
  have hlen := congrArg List.length hsplit
  have hfield : 1 ≤ (wireField long n).length := by cases long <;> simp
  simp only [List.length_append, List.length_cons] at hlen
  rw [hsplit, parseBlocks_block k b0 b1 rest (by omega) hdec, ← hsplit]
  simp only [List.drop_length_add_append, List.drop_left]
  split_ifs with h1 h2 h2
  · rfl
  · omega
  · omega
  · cases parseBlocks 0 (tail.drop n) <;> rfl

/-- A whole block is read back, in either form of its length field. -/
theorem parseBlocks_wireBlock {w : WireBlock} (hw : w.legal) {tail : List Byte} (htail : 4 ≤ tail.length) :
    parseBlocks 0 (w.bytes ++ tail) = (parseBlocks 0 tail).map (w.block :: ·) := by
  rw [WireBlock.bytes, List.cons_append, List.append_assoc,
    parseBlocks_field _ hw (by rw [List.length_append]; omega), if_neg (by rw [List.length_append]; omega),
    List.drop_left, List.take_left]

theorem parseBlocks_wireSection {ws : List WireBlock} (hws : ∀ w ∈ ws, w.legal) {tail : List Byte}
    (htail : 4 ≤ tail.length) :
    parseBlocks 0 (wireSection ws ++ tail) = (parseBlocks 0 tail).map (ws.map WireBlock.block ++ ·) := by
  induction ws with
  | nil => cases h : parseBlocks 0 tail <;> simp [h, Except.map]
  | cons w ws ih =>
    obtain ⟨hw, hrest⟩ := List.forall_mem_cons.1 hws
    rw [wireSection_cons, List.append_assoc, parseBlocks_wireBlock hw (by rw [List.length_append]; omega), ih hrest]
    cases parseBlocks 0 tail <;> rfl

/-- A kind byte alone before the trailer: the field itself runs past the section's end. -/
theorem parseBlocks_kind_only (k : Byte) {tail : List Byte} (htail : tail.length = 4) :
    parseBlocks 0 (k :: tail) = .error .blockOverrun := by
  obtain ⟨t0, t1, t2, t3, rfl⟩ := List.length_eq_four.1 htail
  obtain ⟨d, hd, -, hconsumed⟩ := @lenDec_bound t0 t1
  rw [parseBlocks_block k t0 t1 [t2, t3] (by simp) hd, if_pos (by simp only [List.length_cons, List.length_nil]; omega)]

/-- The first byte of a two-byte field alone before the trailer: the field runs past the section's end. -/
theorem parseBlocks_field_cut (k : Byte) {b0 : Byte} (hb0 : 128 ≤ b0.toNat) {tail : List Byte}
    (htail : tail.length = 4) : parseBlocks 0 (k :: b0 :: tail) = .error .blockOverrun := by
  obtain ⟨t0, t1, t2, t3, rfl⟩ := List.length_eq_four.1 htail
  rw [parseBlocks_block k b0 t0 [t1, t2, t3] (by simp) (lenDec_two hb0),
    if_pos (by simp only [List.length_cons, List.length_nil]; omega)]

/-- A payload longer than the bytes between its field and the trailer. -/
theorem parseBlocks_payload_cut (k : Byte) {long : Bool} {n : Nat} (hn : n ≤ if long then 32767 else 127)
    {body tail : List Byte} (hbody : body.length < n) (htail : tail.length = 4) :
    parseBlocks 0 (k :: (wireField long n ++ (body ++ tail))) = .error .blockOverrun := by
  rw [parseBlocks_field k hn (by rw [List.length_append]; omega), if_pos (by rw [List.length_append]; omega)]

/-! ## The deserializer on frames (43_frame_codec R113 to R116) -/

theorem decodeSection_of_blocks {l : List Byte} {blocks : List Block} (h : parseBlocks 0 l = .ok blocks)
    (type : Half) (crc : Word) :
    decodeSection type crc l =
      .success ⟨BitVec.ofNat 32 (image blocks).length, type, BitVec.ofNat 32 blocks.length, 0#32, 0#8, 0#8, 0#2, crc⟩
        (image blocks) := by
  simp only [decodeSection, h, ResultRegs.zero]

theorem decodeSection_of_error {l : List Byte} {cause : ErrorCause} (h : parseBlocks 0 l = .error cause)
    (type : Half) (crc : Word) : decodeSection type crc l = .raise cause crc := by
  simp only [decodeSection, h]

theorem decodeFrame_of_short {f : List Byte} (h : f.length < 8) : decodeFrame f = .raise .frameShort 0#32 :=
  if_pos h

/-- A frame with a right trailer: the section length is checked against the rest, then the section is parsed. -/
theorem decodeFrame_of_right_trailer {type n : Half} {sect m : List Byte}
    (hm : m = packBe16 type ++ packBe16 n ++ sect) :
    decodeFrame (m ++ packLe32 (crc32 m)) =
      if n.toNat ≠ sect.length then .raise .sectionLenMismatch (crc32 m)
      else decodeSection type (crc32 m) (sect ++ packLe32 (crc32 m)) := by
  have hlen : (m ++ packLe32 (crc32 m)).length = 8 + sect.length := by
    simp only [hm, List.length_append, packBe16_length, packLe32_length]
    omega
  have hsplit : m ++ packLe32 (crc32 m) = type.extractLsb' 8 8 :: type.extractLsb' 0 8 ::
      n.extractLsb' 8 8 :: n.extractLsb' 0 8 :: (sect ++ packLe32 (crc32 m)) := by
    conv_lhs => lhs; rw [hm]
    rfl
  have hok : crcOk (m ++ packLe32 (crc32 m)) = true := by rw [crcOk_append, decide_eq_true rfl]
  unfold decodeFrame
  rw [hok, message_append, hlen, if_neg (by simp only [Config.minFrame]; omega), if_neg (by decide), hsplit]
  simp only [be16_pack, Nat.add_sub_cancel_left]

theorem decodeFrame_wireFrame (type : Half) {sect : List Byte} (h : sect.length ≤ 65535) :
    decodeFrame (wireFrame type sect) =
      decodeSection type (crc32 (wireBody type sect)) (sect ++ packLe32 (crc32 (wireBody type sect))) := by
  have hn : (BitVec.ofNat 16 sect.length).toNat = sect.length := Nat.mod_eq_of_lt (by omega)
  rw [wireFrame, decodeFrame_of_right_trailer (m := wireBody type sect) rfl, if_neg (not_not.2 hn)]

/-- The frame of whole blocks, in either form of their length fields, is decoded to their image. -/
theorem decodeFrame_of_blocks (type : Half) {ws : List WireBlock} (hws : ∀ w ∈ ws, w.legal)
    (hlen : (wireSection ws).length ≤ 65535) :
    decodeFrame (wireFrame type (wireSection ws)) =
      .success ⟨BitVec.ofNat 32 (image (ws.map WireBlock.block)).length, type, BitVec.ofNat 32 ws.length, 0#32, 0#8,
        0#8, 0#2, crc32 (wireBody type (wireSection ws))⟩ (image (ws.map WireBlock.block)) := by
  have hparse : parseBlocks 0 (wireSection ws ++ packLe32 (crc32 (wireBody type (wireSection ws)))) =
      .ok (ws.map WireBlock.block) := by
    rw [parseBlocks_wireSection hws (packLe32_length _).ge, parseBlocks_end (packLe32_length _).le, Except.map,
      List.append_nil]
  rw [decodeFrame_wireFrame type hlen, decodeSection_of_blocks hparse, List.length_map]

/-- Whole blocks before the section's end leave an error behind them as it is. -/
theorem decodeFrame_of_error (type : Half) {ws : List WireBlock} {bad : List Byte} {cause : ErrorCause}
    (hws : ∀ w ∈ ws, w.legal) (hlen : (wireSection ws ++ bad).length ≤ 65535)
    (hbad : ∀ tail : List Byte, tail.length = 4 → parseBlocks 0 (bad ++ tail) = .error cause) :
    decodeFrame (wireFrame type (wireSection ws ++ bad)) =
      .raise cause (crc32 (wireBody type (wireSection ws ++ bad))) := by
  rw [decodeFrame_wireFrame type hlen]
  refine decodeSection_of_error ?_ type _
  rw [List.append_assoc, parseBlocks_wireSection hws (by rw [List.length_append, packLe32_length]; omega),
    hbad _ (packLe32_length _), Except.map]

/-! ## The serializer on images (43_frame_codec R109, R110, R112) -/

/-- The result of FRAME_ENCODE for a packet that fits (43_frame_codec R112). -/
def encodeSuccess (type : Half) (blocks : List Block) : CommandResult :=
  .success
    ⟨BitVec.ofNat 32 (8 + (wireSection (encoded blocks)).length), 0#16, BitVec.ofNat 32 blocks.length, 0#32, 0#8,
      0#8, 0#2, crc32 (wireBody type (wireSection (encoded blocks)))⟩
    (wireFrame type (wireSection (encoded blocks)))

theorem encodeFrame_of_fits (type : Half) {blocks : List Block} (h : fits blocks) :
    encodeFrame type (image blocks) = encodeSuccess type blocks := by
  obtain ⟨hpayload, hlen⟩ := h
  rw [encodeFrame, parseImage_image hpayload]
  simp only [Config.maxSection, serializeBlocks_eq hpayload, sectionSize_eq hpayload]
  rw [if_neg (by omega)]
  rfl

theorem encodeFrame_of_long_section (type : Half) {blocks : List Block}
    (hpayload : ∀ b ∈ blocks, b.payload.length ≤ 32767) (hlen : 65535 < (wireSection (encoded blocks)).length) :
    encodeFrame type (image blocks) = .raise .sectionTooLong 0#32 := by
  rw [encodeFrame, parseImage_image hpayload]
  exact if_pos (by rw [sectionSize_eq hpayload]; exact hlen)

/-- Whole records before it leave the error of a record as it is. -/
theorem encodeFrame_of_error (type : Half) {blocks : List Block} {tail : List Byte} {cause : ErrorCause}
    (hpayload : ∀ b ∈ blocks, b.payload.length ≤ 32767) (htail : parseRecords 0 tail = .error cause) :
    encodeFrame type (image blocks ++ tail) = .raise cause 0#32 := by
  have hparse : parseImage (image blocks ++ tail) = .error cause := by
    rw [parseImage, parseRecords_image hpayload, htail]
  rw [encodeFrame, hparse]

/-- The payload's extent is checked first, so this error comes whatever the length's range. -/
theorem parseRecords_payload_short (k : Byte) {len : Half} {body : List Byte} (h : body.length < len.toNat) :
    parseRecords 0 (k :: (packBe16 len ++ body)) = .error .recordPayloadShort :=
  (parseRecords_header k _ _ body).trans (by rw [be16_pack, if_pos h])

theorem parseRecords_payload_long (k : Byte) {len : Half} {body : List Byte} (h : len.toNat ≤ body.length)
    (hlong : 32767 < len.toNat) : parseRecords 0 (k :: (packBe16 len ++ body)) = .error .payloadTooLong :=
  (parseRecords_header k _ _ body).trans (by rw [be16_pack, if_neg (Nat.not_lt.2 h), if_pos hlong])

/-! ## The commands on the bytes they read (43_frame_codec R112, R117) -/

section Input

variable {s : State} {e : Engine} {bytes : List Byte} (he : s.engines[s.active]? = some e)
  (hbytes : inputIs e s.draws bytes)

include he hbytes

theorem exec_frameEncode_of_input :
    exec .frameEncode s = .next (s.concluded e (encodeFrame (e.seenRegs s.draws).typeIn bytes)) := by
  rw [exec_eq he, ruleOf, frameEncodeResult, Operands.withInput_of_inputIs hbytes, Engine.operands]

theorem exec_frameDecode_of_input : exec .frameDecode s = .next (s.concluded e (decodeFrame bytes)) := by
  rw [exec_eq he, ruleOf, frameDecodeResult, Operands.withInput_of_inputIs hbytes]

end Input

/-- The engine after FRAME_ENCODE of a packet that fits: no error, and OBUF holds the frame. -/
theorem exec_frameEncode_of_fits {s : State} {e : Engine} {blocks : List Block}
    (he : s.engines[s.active]? = some e) (hfits : fits blocks) (himage : inputIs e s.draws (image blocks)) :
    ∃ t e', exec .frameEncode s = .next t ∧ t.engines[s.active]? = some e' ∧ e'.status.err = none ∧
      e'.results.outLen.toNat = (wireFrame (e.seenRegs s.draws).typeIn (wireSection (encoded blocks))).length ∧
      ∀ i, Memory.read e'.obuf i =
        (wireFrame (e.seenRegs s.draws).typeIn (wireSection (encoded blocks)))[i]? := by
  have hlen : (wireSection (encoded blocks)).length ≤ 65535 := hfits.2
  refine ⟨_, _, exec_frameEncode_of_input he himage, State.concluded_active_engine he _, ?_⟩
  rw [encodeFrame_of_fits _ hfits, encodeSuccess, Engine.conclude_success]
  refine ⟨rfl, ?_, fun i => ?_⟩
  · rw [wireFrame_length]
    exact Nat.mod_eq_of_lt (by omega)
  · simpa using Memory.read_ofBytes 0 (wireFrame (e.seenRegs s.draws).typeIn (wireSection (encoded blocks))) i

end Sys2Proof.Machine

namespace Sys2Proof.Proofs

open Sys2Proof.Machine Sys2Proof.Claims

/-- Settles O28: the section parses block by block, whichever form each field has, down to the trailer. -/
theorem frameDecodeOfBlocks : Obligations.FrameDecodeOfBlocks := by
  intro s e type ws he hws hlen hframe
  rw [exec_frameDecode_of_input he hframe, decodeFrame_of_blocks type hws hlen, State.concluded_success]

/-- Settles O30: the encoder's frame is one of legal blocks, so the decoder gives its blocks back. -/
theorem frameRoundTrip : Obligations.FrameRoundTrip := by
  intro s e blocks he hfits himage
  obtain ⟨t, e', hexec, he', herr, houtLen, hobuf⟩ := exec_frameEncode_of_fits he hfits himage
  obtain ⟨hpayload, hlen⟩ := hfits
  obtain ⟨-, hmax, -⟩ := himage
  refine ⟨t, e', hexec, he', herr, fun s2 e2 he2 hinLen hread => ?_⟩
  rw [houtLen] at hread
  have hframe : inputIs e2 s2.draws (wireFrame (e.seenRegs s.draws).typeIn (wireSection (encoded blocks))) :=
    ⟨by rw [hinLen, houtLen], by rw [wireFrame_length]; omega, fun i hi => (hread i hi).trans (hobuf i)⟩
  refine ⟨_, _, exec_frameDecode_of_input he2 hframe, State.concluded_active_engine he2 _, ?_⟩
  rw [decodeFrame_of_blocks _ (encoded_legal hpayload) hlen, encoded_map_block, Engine.conclude_success]
  have himageLength := image_length blocks
  refine ⟨rfl, rfl, ?count, Nat.mod_eq_of_lt (by omega), fun i => ?cells⟩
  case count =>
    rw [encoded_length]
    exact Nat.mod_eq_of_lt (by omega)
  case cells => simpa using Memory.read_ofBytes 0 (image blocks) i

/-- Settles O31: the encoder writes the canonical frame of the blocks, which is shorter than every other one. -/
theorem reencodeGivesTheFrameWhenCanonical : Obligations.ReencodeGivesTheFrameWhenCanonical := by
  intro s e ws he hws hlen himage
  obtain ⟨t, e', hexec, he', herr, -, hobuf⟩ := exec_frameEncode_of_fits he (fits_of_legal hws hlen) himage
  refine ⟨t, e', hexec, he', herr, ?_⟩
  simp only [hobuf]
  rw [← List.ext_getElem?_iff, wireFrame_encoded_eq_iff hws]

/-- Settles O24: the image parses to the packet's blocks, and the serializer writes their section. -/
theorem frameEncodeOfPacketThatFits : Obligations.FrameEncodeOfPacketThatFits := by
  intro s e blocks he hfits himage
  rw [exec_frameEncode_of_input he himage, encodeFrame_of_fits _ hfits, encodeSuccess, State.concluded_success]

/-- Settles O25: the whole records are read, and the first record behind them fails its checks in their order. -/
theorem frameEncodeImageErrors : Obligations.FrameEncodeImageErrors := by
  intro s e blocks tail he hpayload himage
  have raises : ∀ {cause}, parseRecords 0 tail = .error cause →
      exec .frameEncode s = .next (failed s e cause.kind cause 0#32) := fun htail => by
    rw [exec_frameEncode_of_input he himage, encodeFrame_of_error _ hpayload htail, State.concluded_raise]
  refine ⟨fun hlen => raises (parseRecords_short hlen), ?_⟩
  rintro k len body rfl
  exact ⟨fun hshort => raises (parseRecords_payload_short k hshort),
    fun hbody hlong => raises (parseRecords_payload_long k hbody hlong)⟩

/-- Settles O26: the records parse, and their section's size is checked before anything is written. -/
theorem frameEncodeSectionTooLong : Obligations.FrameEncodeSectionTooLong := by
  intro s e blocks he hpayload himage hlen
  rw [exec_frameEncode_of_input he himage, encodeFrame_of_long_section _ hpayload hlen, State.concluded_raise,
    ErrorCause.kind]

/-- Settles O27: the rule checks the length, then the trailer, then the section length. -/
theorem frameDecodeFastFailures : Obligations.FrameDecodeFastFailures := by
  refine ⟨fun s e f he hf hlen => ?short,
    fun s e m c he hf hlen => ⟨fun hc => ?mismatch, fun type n sect hc hm hn => ?sectionLength⟩⟩
  case short =>
    rw [exec_frameDecode_of_input he hf, decodeFrame_of_short hlen, State.concluded_raise, ErrorCause.kind]
  case mismatch =>
    have hexec := exec_frameDecode_of_mismatch he hf (by rw [List.length_append, packLe32_length]; omega)
      (by rw [crcOk_append, decide_eq_false hc.symm])
    rwa [message_append] at hexec
  case sectionLength =>
    subst hc
    rw [exec_frameDecode_of_input he hf, decodeFrame_of_right_trailer hm, if_pos hn, State.concluded_raise,
      ErrorCause.kind]

/-- Settles O29: the whole blocks are read, and each of the three shapes behind them runs past the section's end. -/
theorem frameDecodeBlockOverrun : Obligations.FrameDecodeBlockOverrun := by
  intro s e type ws bad he hws hlen hframe hbad
  have hoverrun : ∀ tail : List Byte, tail.length = 4 → parseBlocks 0 (bad ++ tail) = .error .blockOverrun := by
    intro tail htail
    rcases hbad with ⟨k, rfl⟩ | ⟨k, b0, rfl, hb0⟩ | ⟨k, long, n, body, rfl, hn, hbody⟩
    · exact parseBlocks_kind_only k htail
    · exact parseBlocks_field_cut k hb0 htail
    · rw [List.cons_append, List.append_assoc]
      exact parseBlocks_payload_cut k hn hbody htail
  rw [exec_frameDecode_of_input he hframe, decodeFrame_of_error type hws hlen hoverrun, State.concluded_raise,
    ErrorCause.kind]

end Sys2Proof.Proofs
end

section
/-! PROOFS. Exceptions and reset: which host accesses end in a bus error, that no turn stops the machine with a fault,
the STATUS word of each error cause, and the state right after reset (60_exceptions R122, R123, R133, R134, R137). -/

namespace Sys2Proof.Machine

/-! ## Bus errors (60_exceptions R133) -/

/-- R133's accesses are those that reach nothing, and writes from OBUF on. -/
theorem busErrorAccess_iff (t : Transaction) :
    Claims.busErrorAccess t ↔
      target t.off.toNat t.access.size = none ∨ (0x40000 ≤ t.off.toNat ∧ ∃ d, t.access = .write d) := by
  simp only [Claims.busErrorAccess, target_eq_none, or_assoc]

/-- An access that reaches something is aligned, 32 bits wide in the register page, and in one of the three regions. -/
theorem aligned_mapped_of_target {off : Nat} {size : AccessSize} (h : target off size ≠ none) :
    off % size.bytes = 0 ∧ (off < 0x100 → size = .four) ∧ (0x100 ≤ off → 0x20000 ≤ off) ∧ off < 0x60000 := by
  simpa only [ne_eq, target_eq_none, not_or, not_and, not_not, not_lt, not_le] using h

/-- OBUF is not writable (20_memory R52). -/
theorem State.hostAccess_writeObuf {off : BitVec 19} {d : WriteData} (h1 : off.toNat % d.size.bytes = 0)
    (h2 : 0x40000 ≤ off.toNat) (h3 : off.toNat < 0x60000) (s : State) (n : Nat) (e : Engine) :
    s.hostAccess n e ⟨off, .write d⟩ = s.respond .busError := by
  simp only [State.hostAccess, Access.size, target_obuf h1 h2 h3, State.hostWrite]

theorem State.hostAccess_of_busErrorAccess {t : Transaction} (h : Claims.busErrorAccess t) (s : State) (n : Nat)
    (e : Engine) : s.hostAccess n e t = s.respond .busError := by
  by_cases htg : target t.off.toNat t.access.size = none
  · exact State.hostAccess_of_none htg s n e
  · obtain ⟨off, access⟩ := t
    obtain ⟨hobuf, d, rfl⟩ := ((busErrorAccess_iff _).1 h).resolve_left htg
    obtain ⟨halign, -, -, hend⟩ := aligned_mapped_of_target htg
    exact State.hostAccess_writeObuf halign hobuf hend s n e

theorem State.cellRead_response_ne_busError (s : State) (cells : Option (List Byte)) :
    (s.cellRead cells).response ≠ some .busError := by
  cases cells <;> simp [State.cellRead]

/-- A read that reaches something gives a register, cells, a free value or no value. -/
theorem State.hostRead_response_ne_busError (s : State) (e : Engine) (tg : Target) (size : AccessSize) :
    (s.hostRead e tg size).response ≠ some .busError := by
  cases tg with
  | reg r => simp only [State.hostRead]; split <;> simp [State.freeRead]
  | ibuf i => exact s.cellRead_response_ne_busError _
  | obuf i =>
    simp only [State.hostRead]
    split
    · simp [State.freeRead]
    · exact s.cellRead_response_ne_busError _

/-- A write outside R133's accesses stores a word in the register page or bytes in IBUF. -/
theorem State.hostAccess_response_ne_busError {t : Transaction} (h : ¬ Claims.busErrorAccess t) (s : State) (n : Nat)
    (e : Engine) : (s.hostAccess n e t).response ≠ some .busError := by
  obtain ⟨off, access⟩ := t
  obtain ⟨htg, hobuf⟩ := not_or.1 (mt (busErrorAccess_iff _).2 h)
  cases access with
  | read size =>
    obtain ⟨tg, htg⟩ := Option.ne_none_iff_exists'.1 htg
    rw [State.hostAccess_read (off := off) (size := size) htg]
    exact s.hostRead_response_ne_busError e tg size
  | write d =>
    obtain ⟨halign, hwidth, hgap, -⟩ := aligned_mapped_of_target htg
    have hbelow : off.toNat < 0x40000 := Nat.lt_of_not_le fun hle => hobuf ⟨hle, d, rfl⟩
    by_cases hpage : off.toNat < 0x100
    · cases d with
      | byte v => cases hwidth hpage
      | half v => cases hwidth hpage
      | word w => simp [State.hostAccess_writeReg halign hpage]
    · simp [State.hostAccess_writeIbuf halign (hgap (Nat.le_of_not_lt hpage)) hbelow]

/-! ## No turn stops with a fault (60_exceptions R134, log entry 5) -/

theorem State.performTurn_ne_fault (s : State) (n : Nat) (f : Fault) : s.performTurn n ≠ .fault f := by
  cases he : s.engines[n]? with
  | none => simp [State.performTurn, he]
  | some e => simp [State.performTurn_eq he]

theorem State.hostTurn_ne_fault (s : State) (n : Nat) (t : Transaction) (f : Fault) : s.hostTurn n t ≠ .fault f := by
  unfold State.hostTurn
  split <;> exact nofun

theorem State.busTurn_ne_fault (s : State) (addr : Nat) (access : Access) (f : Fault) :
    s.busTurn addr access ≠ .fault f := by
  unfold State.busTurn
  split
  · exact nofun
  · split <;> exact nofun

theorem State.branch_ne_fault (s : State) (sense : Bool) (name : Nat) (mask value : Word) (label : Nat) (f : Fault) :
    s.branch sense name mask value label ≠ .fault f := by
  unfold State.branch
  split
  · exact nofun
  · split
    · split <;> exact nofun
    · exact nofun

theorem State.scriptTurn_ne_fault (s : State) (f : Fault) : s.scriptTurn ≠ .fault f := by
  unfold State.scriptTurn
  split
  · exact nofun
  · split
    · exact nofun
    · split <;> exact nofun
    · split <;> exact nofun
    · exact s.branch_ne_fault _ _ _ _ _ f
    · exact s.branch_ne_fault _ _ _ _ _ f

theorem State.takeTurn_ne_fault (s : State) (turn : Turn) (f : Fault) : s.takeTurn turn ≠ .fault f := by
  cases turn with
  | host n t => exact s.hostTurn_ne_fault n t f
  | bus addr access => exact s.busTurn_ne_fault addr access f
  | script => exact s.scriptTurn_ne_fault f
  | perform n => exact s.performTurn_ne_fault n f
  | reset => exact nofun

/-- After the last turn either nothing changes or an engine the platform has performs. -/
theorem State.drainTurn_next (s : State) : ∃ t, s.drainTurn = .next t := by
  cases hn : s.engines.findIdx? Engine.enabled with
  | none => exact ⟨s, by simp only [State.drainTurn, hn]⟩
  | some n =>
    obtain ⟨e, he, -⟩ := State.first_enabled hn
    exact ⟨_, by simp only [State.drainTurn, hn]; exact State.performTurn_eq he⟩

/-- A step with no turn left. -/
theorem step_no_turn {s : State} (hs : s.schedule = []) : step s = s.drainTurn := by
  rw [step, hs]

theorem step_ne_fault (s : State) (f : Fault) : step s ≠ .fault f := by
  cases hs : s.schedule with
  | nil =>
    obtain ⟨t, ht⟩ := s.drainTurn_next
    rw [step_no_turn hs, ht]
    exact nofun
  | cons turn rest =>
    rw [step_turn hs]
    exact State.takeTurn_ne_fault _ turn f

/-! ## STATUS after a completion with REJECTED clear (60_exceptions R122, R123) -/

theorem Status.failed_of_not_rejected {st : Status} (h : st.rejected = false) (c : ErrorCause) :
    st.failed c = ⟨false, true, false, some c.kind, some c⟩ := by
  rw [Status.failed, h]

theorem Status.succeeded_of_not_rejected {st : Status} (h : st.rejected = false) :
    st.succeeded = ⟨false, true, false, none, none⟩ := by
  rw [Status.succeeded, h]

/-! ## The state right after reset (60_exceptions R137) -/

@[simp] theorem Engine.reset_busy : Engine.reset.status.busy = false := rfl
@[simp] theorem Engine.reset_irq : Engine.reset.irq = false := rfl
@[simp] theorem Engine.reset_readReg_id : Engine.reset.readReg .id = 0x48444643#32 := rfl

/-- Every register but ID is 0 after reset (10_state R14). -/
theorem Engine.reset_readReg {r : Reg} (h : r ≠ .id) : Engine.reset.readReg r = 0#32 := by
  cases r with
  | id => exact absurd rfl h
  | cmd | status | irqEn | inLen | typeIn | lenIn | lenWinIn | outLen | typeOut | blockCount | lenOut | lenWinOut
  | lenConsumed | crcOut | reserved => rfl

/-- No buffer cell holds a value after reset (10_state R35, R36). -/
theorem Engine.reset_buffers (a : Nat) :
    Memory.read Engine.reset.ibuf a = none ∧ Memory.read Engine.reset.obuf a = none := ⟨rfl, rfl⟩

theorem State.eq_reset_of_mem_reset {e : Engine} (h : e ∈ State.reset.engines) : e = Engine.reset := by
  rcases List.mem_cons.1 h with rfl | h
  · rfl
  · exact List.eq_of_mem_replicate h

@[simp] theorem State.reset_engines_length : State.reset.engines.length = Config.numEngines := by
  rw [State.reset, List.length_cons, List.length_replicate, Config.numEngines]

theorem State.reset_inv : State.reset.Inv where
  engine_count := State.reset_engines_length
  engines_legal e he := by
    rw [State.eq_reset_of_mem_reset he]
    exact Engine.reset_inv

end Sys2Proof.Machine

namespace Sys2Proof.Proofs

open Sys2Proof.Machine Sys2Proof.Claims

/-- Settles O39: the turn is one host access, which responds with a bus error and nothing else exactly for R133's
accesses. -/
theorem busErrorsChangeNothing : Obligations.BusErrorsChangeNothing := by
  intro s n rest e t hs he
  rw [step_host hs he]
  refine ⟨fun h => ?_, fun h => ⟨_, rfl, State.hostAccess_response_ne_busError h _ n e⟩⟩
  rw [State.hostAccess_of_busErrorAccess h]
  rfl

/-- Settles O57: no turn of any agent answers a fault, and each of the turns named finds its engine. -/
theorem turnsOfExistingEnginesAnswerANextState : Obligations.TurnsOfExistingEnginesAnswerANextState := by
  refine ⟨step_ne_fault, fun s rest n t hn hs => ?_⟩
  have he : s.engines[n]? = some s.engines[n] := List.getElem?_eq_getElem hn
  rcases hs with hs | hs | hs | hs
  · exact ⟨_, (step_turn hs).trans (State.performTurn_eq (s := { s with schedule := rest }) he)⟩
  · exact ⟨_, step_host hs he⟩
  · exact ⟨_, step_turn hs⟩
  · rw [step_no_turn hs]
    exact s.drainTurn_next

/-- Settles O14: with REJECTED clear a completion leaves one STATUS for each cause, whose word is evaluated. -/
theorem statusOfEachCause : Obligations.StatusOfEachCause := by
  intro st h
  simp only [Status.failed_of_not_rejected h, Status.succeeded_of_not_rejected h]
  decide

/-- Settles O54: every engine of the reset state is the reset engine. -/
theorem resetIsLegal : Obligations.ResetIsLegal := by
  refine ⟨⟨State.reset_engines_length, Nat.le_add_left 1 _⟩, fun e he => ?_, State.reset_inv, rfl, rfl⟩
  obtain rfl := State.eq_reset_of_mem_reset he
  exact ⟨Engine.reset_busy, Engine.reset_irq, Engine.reset_readReg_id, fun _ => Engine.reset_readReg,
    Engine.reset_buffers⟩

end Sys2Proof.Proofs
end

section
/-! PROOFS. Host accesses while a command is pending: which reads are free, which writes are hazards and what they
store, and that no access writes a result (70_reset_and_hazards R147 to R149, 93 U4). -/

namespace Sys2Proof.Machine

/-! ## The input and the result registers by their offsets (10_state R14) -/

theorem Reg.at_isInput_iff (off : Nat) : (Reg.at off).isInput = true ↔ 0x10 ≤ off ∧ off < 0x20 := by
  unfold Reg.at
  split
  case h_5 | h_6 | h_7 | h_8 => exact iff_of_true rfl (by omega)
  case h_16 => exact iff_of_false Bool.false_ne_true (by simp only [imp_false] at *; omega)
  all_goals exact iff_of_false Bool.false_ne_true (by omega)

theorem Reg.at_isResult_iff (off : Nat) : (Reg.at off).isResult = true ↔ 0x20 ≤ off ∧ off < 0x3C := by
  unfold Reg.at
  split
  case h_9 | h_10 | h_11 | h_12 | h_13 | h_14 | h_15 => exact iff_of_true rfl (by omega)
  case h_16 => exact iff_of_false Bool.false_ne_true (by simp only [imp_false] at *; omega)
  all_goals exact iff_of_false Bool.false_ne_true (by omega)

/-! ## Reads while busy (70_reset_and_hazards R148) -/

/-- A free value is as wide as its access. -/
theorem AccessSize.low_toNat_lt (size : AccessSize) (w : Word) : (size.low w).toNat < 256 ^ size.bytes := by
  cases size with
  | one => exact Nat.lt_of_le_of_lt (Nat.le_of_eq (BitVec.toNat_setWidth_of_le (by decide))) (w.setWidth 8).isLt
  | two => exact Nat.lt_of_le_of_lt (Nat.le_of_eq (BitVec.toNat_setWidth_of_le (by decide))) (w.setWidth 16).isLt
  | four => exact w.isLt

/-- While busy a result register and OBUF give a free value. -/
theorem State.hostAccess_freeRead {e : Engine} {off : BitVec 19} {size : AccessSize} (hb : e.status.busy = true)
    (halign : off.toNat % size.bytes = 0)
    (hoff : size = .four ∧ 0x20 ≤ off.toNat ∧ off.toNat < 0x3C ∨ 0x40000 ≤ off.toNat ∧ off.toNat < 0x60000)
    (s : State) (n : Nat) : s.hostAccess n e ⟨off, .read size⟩ = s.freeRead size := by
  rcases hoff with ⟨rfl, hlo, hhi⟩ | ⟨hlo, hhi⟩
  · have hresult := (Reg.at_isResult_iff off.toNat).2 ⟨hlo, hhi⟩
    rw [State.hostAccess_read (target_reg halign (by omega)), State.hostRead, hb, hresult]
    rfl
  · rw [State.hostAccess_read (target_obuf halign hlo hhi), State.hostRead, if_pos hb]

/-! ## Writes of the inputs (70_reset_and_hazards R147) -/

/-- An input register stores the written word, busy or not, and is marked if its engine is busy. -/
theorem Engine.writeReg_of_isInput (e : Engine) {r : Reg} (hr : r.isInput = true) (w : Word) :
    e.writeReg r w = { e with
      inputs := e.inputs.store r w
      hazard := if e.status.busy then e.hazard.mark r else e.hazard } := by
  cases r with
  | inLen | typeIn | lenIn | lenWinIn => rfl
  | id | cmd | status | irqEn | outLen | typeOut | blockCount | lenOut | lenWinOut | lenConsumed | crcOut
  | reserved => cases hr

/-- TYPE_IN takes the low 16 bits (10_state R21). -/
theorem InputRegs.store_typeIn (x : InputRegs) (w : Word) :
    x.store .typeIn w = { x with typeIn := BitVec.ofNat 16 (w.toNat % 65536) } := by
  have h : w.extractLsb' 0 16 = BitVec.ofNat 16 (w.toNat % 65536) := by
    apply BitVec.eq_of_toNat_eq
    simp
  rw [InputRegs.store, h]

/-- LEN_WIN_IN takes its three low bytes (10_state R23). -/
theorem InputRegs.store_lenWinIn (x : InputRegs) (w : Word) :
    x.store .lenWinIn w = { x with
      winB0 := BitVec.ofNat 8 (w.toNat % 256)
      winB1 := BitVec.ofNat 8 (w.toNat / 256 % 256)
      winSize := BitVec.ofNat 8 (w.toNat / 65536 % 256) } := by
  have h (i : Nat) : w.extractLsb' i 8 = BitVec.ofNat 8 (w.toNat / 2 ^ i % 256) := by
    apply BitVec.eq_of_toNat_eq
    simp [Nat.shiftRight_eq_div_pow]
  rw [InputRegs.store, h 0, h 8, h 16, Nat.pow_zero, Nat.div_one]
  rfl

/-- A 32-bit write to an input register of a busy engine is a hazard, and the word is written as usual. -/
theorem step_writeInput_busy {s : State} {n : Nat} {off : BitVec 19} {w : Word} {rest : List Turn} {e : Engine}
    (hs : s.schedule = .host n ⟨off, .write (.word w)⟩ :: rest) (he : s.engines[n]? = some e)
    (hb : e.status.busy = true) (halign : off.toNat % 4 = 0) (hlt : off.toNat < 0x100)
    (hin : (Reg.at off.toNat).isInput = true) :
    step s = .next { Claims.without s rest with
      engines := s.engines.set n (e.writeReg (Reg.at off.toNat) w)
      faults := { s.faults with hostHazard := true }
      response := some .written } := by
  rw [step_host hs he, State.hostAccess_writeReg halign hlt, hb, hin]
  rfl

/-- A write to IBUF of a busy engine is a hazard, and the bytes are written as usual. -/
theorem step_writeIbuf_busy {s : State} {n : Nat} {off : BitVec 19} {d : WriteData} {rest : List Turn} {e : Engine}
    (hs : s.schedule = .host n ⟨off, .write d⟩ :: rest) (he : s.engines[n]? = some e)
    (hb : e.status.busy = true) (halign : off.toNat % d.size.bytes = 0) (hlo : 0x20000 ≤ off.toNat)
    (hhi : off.toNat < 0x40000) :
    step s = .next { Claims.without s rest with
      engines := s.engines.set n (e.writeIbuf (off.toNat - 0x20000) d.lanes)
      faults := { s.faults with hostHazard := true }
      response := some .written } := by
  rw [step_host hs he, State.hostAccess_writeIbuf halign hlo hhi, hb]
  rfl

/-- Only a word is 32 bits wide. -/
theorem WriteData.eq_word_of_size {d : WriteData} (h : d.size = .four) : ∃ w, d = .word w := by
  cases d with
  | word w => exact ⟨w, rfl⟩
  | byte v | half v => cases h

/-! ## What no host access writes (70_reset_and_hazards R149) -/

theorem Engine.writeReg_results_obuf (e : Engine) (r : Reg) (w : Word) :
    (e.writeReg r w).results = e.results ∧ (e.writeReg r w).obuf = e.obuf := by
  cases r with
  | cmd => simp only [Engine.writeReg, Engine.issue]; split <;> exact ⟨rfl, rfl⟩
  | id | status | irqEn | inLen | typeIn | lenIn | lenWinIn | outLen | typeOut | blockCount | lenOut | lenWinOut
  | lenConsumed | crcOut | reserved => exact ⟨rfl, rfl⟩

/-- The engine a host access reaches keeps its result registers and OBUF. -/
theorem State.hostAccess_results_obuf {s : State} {n : Nat} {e : Engine} (he : s.engines[n]? = some e)
    (tr : Transaction) :
    ∃ e', (s.hostAccess n e tr).engines[n]? = some e' ∧ e'.results = e.results ∧ e'.obuf = e.obuf := by
  obtain ⟨hlt, -⟩ := List.getElem?_eq_some_iff.1 he
  rcases State.hostAccess_engines s n e tr with h | ⟨r, w, h⟩ | ⟨i, bytes, -, h⟩
  · exact ⟨e, by rw [h, he], rfl, rfl⟩
  · exact ⟨e.writeReg r w, by rw [h, List.getElem?_set_self hlt], e.writeReg_results_obuf r w⟩
  · exact ⟨e.writeIbuf i bytes, by rw [h, List.getElem?_set_self hlt], rfl, rfl⟩

end Sys2Proof.Machine

namespace Sys2Proof.Proofs

open Sys2Proof.Machine Sys2Proof.Claims

/-- Settles O42: result registers and OBUF answer a free value, and the offsets that are no result register answer the
register's word. -/
theorem readsWhileBusy : Obligations.ReadsWhileBusy := by
  intro s n rest e off size hs he hb halign
  refine ⟨fun hfree => ?free, fun hsize hcurrent => ?current⟩
  case free =>
    refine ⟨size.low (Config.busyRead s.draws), size.low_toNat_lt _, ?_⟩
    rw [step_host hs he, State.hostAccess_freeRead hb halign hfree]
    rfl
  case current =>
    subst hsize
    have hnot : (Reg.at off.toNat).isResult = false := by
      rw [Bool.eq_false_iff, ne_eq, Reg.at_isResult_iff]
      omega
    exact ⟨e.readReg (Reg.at off.toNat), e.readReg_readsAs off.toNat,
      step_readReg hs he halign (by omega) (by rw [hnot, Bool.and_false])⟩

/-- Settles O47: an input write is the usual register or IBUF write with the fault recorded, and STATUS and IRQ_EN are
no inputs. -/
theorem inputWritesWhileBusyAreHazards : Obligations.InputWritesWhileBusyAreHazards := by
  intro s n rest e off d hs he hb halign
  refine ⟨?hazard, ?noHazard⟩
  case hazard =>
    rintro (⟨hsize, hlo, hhi⟩ | ⟨hlo, hhi⟩)
    · obtain ⟨w, rfl⟩ := WriteData.eq_word_of_size hsize
      have hin := (Reg.at_isInput_iff off.toNat).2 ⟨hlo, hhi⟩
      refine ⟨_, step_writeInput_busy hs he hb halign (by omega) hin, ?_⟩
      rw [Engine.writeReg_of_isInput e hin]
      refine ⟨rfl, ?inLen, ?typeIn, ?lenIn, ?lenWinIn, fun _ => rfl, fun h => by omega⟩ <;> rintro _ ⟨⟩ rfl
      case inLen | lenIn => rfl
      case typeIn => exact InputRegs.store_typeIn _ _
      case lenWinIn => exact InputRegs.store_lenWinIn _ _
    · have notPage {P : Prop} (x : BitVec 19) (hx : x.toNat < 0x20000) (h : off = x) : P := by
        subst h
        omega
      refine ⟨_, step_writeIbuf_busy hs he hb halign hlo hhi, rfl, fun _ _ => notPage _ (by decide),
        fun _ _ => notPage _ (by decide), fun _ _ => notPage _ (by decide), fun _ _ => notPage _ (by decide),
        fun h => by omega, fun _ => ⟨rfl, fun j hj => ?_, fun a ha => ?_⟩⟩
      · rw [← d.lanes_getElem? hj]
        exact Memory.read_writeBytes _ _ _ (by rwa [WriteData.lanes_length])
      · exact Memory.read_writeBytes_other _ _ _ (by rwa [WriteData.lanes_length])
  case noHazard =>
    rintro ⟨hsize, hoff⟩
    obtain ⟨w, rfl⟩ := WriteData.eq_word_of_size hsize
    have hreg : off.toNat % 4 = 0 ∧ off.toNat < 0x100 ∧ (Reg.at off.toNat).isInput = false := by
      rcases hoff with rfl | rfl <;> decide
    obtain ⟨h4, hlt, hin⟩ := hreg
    exact ⟨_, step_writeReg hs he h4 hlt (by rw [hin, Bool.and_false]), rfl⟩

/-- Settles O48: the turn is one host access, which leaves the other engines alone and of its own engine the results and
OBUF. -/
theorem hostAccessesKeepResultsAndOutput : Obligations.HostAccessesKeepResultsAndOutput := by
  intro s s' rest n m t e hs he h
  obtain ⟨a, ha, rfl⟩ := step_host_next hs h
  by_cases hmn : m = n
  · subst hmn
    obtain rfl : a = e := Option.some.inj (ha.symm.trans he)
    obtain ⟨e', he', hresults, hobuf⟩ := State.hostAccess_results_obuf (s := { s with schedule := rest }) he t
    exact ⟨e', he', hresults, fun _ => by rw [hobuf]⟩
  · exact ⟨e, (State.hostAccess_engines_other _ a t hmn).trans he, rfl, fun _ => rfl⟩

end Sys2Proof.Proofs
end

section
/-! PROOFS. Progress and reset: every pending command ends, in the runs of the machine by itself and in the fair runs,
and what a reset turn leaves (70_reset_and_hazards R141, R142, R153). -/

namespace Sys2Proof.Machine

/-! ## One perform step (40_control R89 to R93) -/

/-- A perform step completes its command and records no fault, or UNINIT_READ stops it and the engine is otherwise
unchanged. -/
theorem State.concluded_completes_or_stops (s : State) (e : Engine) (r : CommandResult) :
    ((e.conclude r).status.busy = false ∧ (e.conclude r).status.done = true ∧ (s.concluded e r).faults = s.faults) ∨
      (e.conclude r = { e with stuck := true } ∧ (s.concluded e r).faults.uninitRead = true ∧
        (s.concluded e r).faults.hostHazard = s.faults.hostHazard) := by
  cases r with
  | success regs out => exact .inl ⟨rfl, rfl, rfl⟩
  | raise cause crc => exact .inl ⟨rfl, rfl, rfl⟩
  | uninitRead => exact .inr ⟨rfl, rfl, rfl⟩

/-- The first enabled engine, found by its number. -/
theorem State.findIdx_enabled {s : State} {n : Nat} {e : Engine} (he : s.engines[n]? = some e)
    (hen : e.enabled = true) (hbefore : ∀ m, m < n → s.enabledAt m = false) :
    s.engines.findIdx? Engine.enabled = some n := by
  obtain ⟨hlt, rfl⟩ := List.getElem?_eq_some_iff.1 he
  refine List.findIdx?_eq_some_iff_getElem.2 ⟨hlt, hen, fun m hm => ?_⟩
  have hm' := hbefore m hm
  simp only [State.enabledAt, List.getElem?_eq_getElem (Nat.lt_trans hm hlt)] at hm'
  simp [hm']

theorem State.enabled_eq_false_of_mem {s : State} (h : ∀ n, s.enabledAt n = false) {e : Engine}
    (he : e ∈ s.engines) : e.enabled = false := by
  obtain ⟨n, hn⟩ := List.mem_iff_getElem?.1 he
  have hat := h n
  simpa only [State.enabledAt, hn] using hat

/-! ## A pending command along a run (70_reset_and_hazards R153) -/

/-- Engine n holds the pending command w, and no fault stopped it. -/
def State.pending (s : State) (n : Nat) (w : Word) : Prop :=
  ∃ e, s.engines[n]? = some e ∧ e.enabled = true ∧ e.cmd = w

theorem State.pending.enabledAt {s : State} {n : Nat} {w : Word} (h : s.pending n w) : s.enabledAt n = true := by
  obtain ⟨e, he, hen, -⟩ := h
  exact (State.enabledAt_iff s n).2 ⟨e, he, hen⟩

/-- The engines below n with an enabled step: those that perform before engine n after the last turn. -/
def State.enabledBelow (s : State) (n : Nat) : Finset Nat := (Finset.range n).filter (fun m => s.enabledAt m = true)

theorem State.card_enabledBelow_le (s : State) (n : Nat) : (s.enabledBelow n).card ≤ n :=
  (Finset.card_filter_le _ _).trans_eq (Finset.card_range n)

/-- A step that disables one engine below n and moves no other leaves fewer enabled ones there. -/
theorem State.card_enabledBelow_lt {s t : State} {n m : Nat} (hm : m < n) (hs : s.enabledAt m = true)
    (ht : t.enabledAt m = false) (hother : ∀ i, i ≠ m → t.enabledAt i = s.enabledAt i) :
    (t.enabledBelow n).card < (s.enabledBelow n).card := by
  have hmem : m ∈ s.enabledBelow n := Finset.mem_filter.2 ⟨Finset.mem_range.2 hm, hs⟩
  have hsub : t.enabledBelow n ⊆ (s.enabledBelow n).erase m := by
    intro i hi
    obtain ⟨hin, hen⟩ := Finset.mem_filter.1 hi
    have him : i ≠ m := by
      rintro rfl
      rw [ht] at hen
      cases hen
    exact Finset.mem_erase.2 ⟨him, Finset.mem_filter.2 ⟨hin, by rw [← hother i him, hen]⟩⟩
  exact (Finset.card_le_card hsub).trans_lt (Finset.card_erase_lt_of_mem hmem)

/-- How many steps engine n's pending command waits at most: the turns left and every engine before n, or after the last
turn the enabled engines before n. -/
def State.wait (s : State) (n : Nat) : Nat :=
  if s.schedule = [] then (s.enabledBelow n).card else s.schedule.length + n

theorem State.wait_le (s : State) (n : Nat) : s.wait n ≤ s.schedule.length + n := by
  unfold State.wait
  split
  · exact (s.card_enabledBelow_le n).trans (Nat.le_add_left n _)
  · exact Nat.le_refl _

/-- Every step ends a pending command or leaves it pending with less to wait. -/
theorem State.pending.ends_or_waits {s t : State} {n : Nat} {w : Word} (hp : s.pending n w) (h : step s = .next t) :
    CommandEnds n w s t ∨ (t.pending n w ∧ t.wait n < s.wait n) := by
  obtain ⟨e, he, hen, rfl⟩ := hp
  refine (pending_step h he hen).imp id ?_
  rintro ⟨hpending, hschedule, hlast⟩
  refine ⟨hpending, ?_⟩
  cases hs : s.schedule with
  | nil =>
    obtain ⟨m, hm, hsm, htm, hother⟩ := hlast hs
    have ht : t.schedule = [] := by rw [hschedule, hs, List.tail_nil]
    rw [State.wait, if_pos ht, State.wait, if_pos hs]
    exact State.card_enabledBelow_lt hm hsm htm hother
  | cons turn rest =>
    have ht : t.schedule = rest := by rw [hschedule, hs, List.tail_cons]
    calc t.wait n
      _ ≤ rest.length + n := ht ▸ t.wait_le n
      _ < (turn :: rest).length + n := by rw [List.length_cons]; omega
      _ = s.wait n := by rw [State.wait, hs, if_neg (List.cons_ne_nil _ _)]

/-- In a run of the machine by itself a pending command ends within its wait. -/
theorem Run.pending_ends {r : Nat → State} (hr : Run r) {n : Nat} {w : Word} (b : Nat) (k : Nat)
    (hp : (r k).pending n w) (hb : (r k).wait n ≤ b) :
    ∃ j, k ≤ j ∧ j ≤ k + b ∧ CommandEnds n w (r j) (r (j + 1)) := by
  induction b generalizing k with
  | zero =>
    rcases hp.ends_or_waits (hr k) with hend | ⟨-, hlt⟩
    · exact ⟨k, Nat.le_refl k, Nat.le_refl k, hend⟩
    · omega
  | succ b ih =>
    rcases hp.ends_or_waits (hr k) with hend | ⟨hp', hlt⟩
    · exact ⟨k, Nat.le_refl k, Nat.le_add_right k _, hend⟩
    · obtain ⟨j, hlo, hhi, hend⟩ := ih (k + 1) hp' (by omega)
      exact ⟨j, by omega, by omega, hend⟩

/-- A perform turn of engine n ends its pending command. -/
theorem State.pending.ends_of_perform {s t : State} {n : Nat} {w : Word} {rest : List Turn} (hp : s.pending n w)
    (hs : s.schedule = .perform n :: rest) (h : step s = .next t) : CommandEnds n w s t := by
  obtain ⟨e, he, hen, rfl⟩ := hp
  obtain ⟨r, -, hrun⟩ := State.performTurn_enabled (s := { s with schedule := rest }) he hen
  rw [step_turn hs, State.takeTurn, hrun] at h
  exact commandEnds_of_concluded (x := { s with schedule := rest, active := n }) he hen rfl rfl
    (Host.Outcome.next.inj h).symm

/-- In a run of chosen turns a pending command ends before a later point or is pending there still. -/
theorem FairRun.pending_ends_or_stays {turns : Nat → Turn} {r : Nat → State} (hr : FairRun turns r) {n k : Nat}
    {w : Word} (hp : (r k).pending n w) (d : Nat) :
    (∃ j, k ≤ j ∧ CommandEnds n w { r j with schedule := [turns j] } (r (j + 1))) ∨ (r (k + d)).pending n w := by
  induction d with
  | zero => exact .inr hp
  | succ d ih =>
    rcases ih with hend | hp'
    · exact .inl hend
    · have hp'' : ({ r (k + d) with schedule := [turns (k + d)] } : State).pending n w := hp'
      exact (hp''.ends_or_waits (hr.steps (k + d))).imp (fun hend => ⟨k + d, Nat.le_add_right k d, hend⟩) And.left

/-! ## Reset (70_reset_and_hazards R141) -/

theorem State.eq_reset_of_mem_resetStep {s : State} {e : Engine} (h : e ∈ s.resetStep.engines) :
    e = Engine.reset := by
  obtain ⟨-, -, rfl⟩ := List.mem_map.1 h
  rfl

end Sys2Proof.Machine

namespace Sys2Proof.Proofs

open Sys2Proof.Machine Sys2Proof.Claims

/-- Settles O9: the turn is one perform step, which completes the command or stops it. -/
theorem enabledEngineCompletesOrFaults : Obligations.EnabledEngineCompletesOrFaults := by
  intro s n rest e hs he hb hstuck
  obtain ⟨r, -, hrun⟩ := State.runWord_eq (s := { without s rest with active := n }) he e.cmd
  exact ⟨_, e.conclude r, (step_perform_enabled hs he hb hstuck).trans hrun,
    State.concluded_active_engine (s := { without s rest with active := n }) he r,
    State.concluded_completes_or_stops _ e r⟩

/-- Settles O5: every step that does not end the command shortens its wait, which starts below the turns left plus n. -/
theorem everyRunEndsItsCommands : Obligations.EveryRunEndsItsCommands := by
  intro r k n e hr he hen
  obtain ⟨j, hlo, hhi, hend⟩ := hr.pending_ends _ k ⟨e, he, hen, rfl⟩ ((r k).wait_le n)
  exact ⟨j, hlo, by omega, hend⟩

/-- Settles O6: a command that has not ended stays enabled, so fairness gives its engine a perform turn, which ends
it. -/
theorem fairRunsEndTheirCommands : Obligations.FairRunsEndTheirCommands := by
  intro turns r k n e hr he hen
  obtain ⟨j, hkj, hfair⟩ := hr.fair n k
  obtain ⟨d, rfl⟩ := Nat.exists_eq_add_of_le hkj
  rcases hr.pending_ends_or_stays ⟨e, he, hen, rfl⟩ d with hend | hp
  · exact hend
  · have hturn : turns (k + d) = .perform n := hfair.resolve_right (by rw [hp.enabledAt]; decide)
    have hp' : ({ r (k + d) with schedule := [turns (k + d)] } : State).pending n e.cmd := hp
    exact ⟨k + d, hkj, hp'.ends_of_perform (by rw [hturn]) (hr.steps (k + d))⟩

/-- Settles O4: the first enabled engine is the one that performs, and with none enabled the step is idle. -/
theorem stepAfterTheLastTurn : Obligations.StepAfterTheLastTurn := by
  intro s hs
  refine ⟨fun n e i he hb hstuck hbefore hdecode => ?_, fun hnone => ?_⟩
  · have hen : e.enabled = true := (Engine.enabled_iff e).2 ⟨hb, hstuck⟩
    rw [step_drain hs (State.findIdx_enabled he hen hbefore) he, State.runWord_of_decode hdecode]
  · exact step_idle hs fun e he => State.enabled_eq_false_of_mem hnone he

/-- Settles O53: every engine after the turn is the reset engine. -/
theorem resetStepGivesResetValues : Obligations.ResetStepGivesResetValues := by
  intro s rest hs
  refine ⟨_, step_turn hs, rfl, List.length_map _, fun e he => ?_⟩
  obtain rfl := State.eq_reset_of_mem_resetStep he
  exact ⟨Engine.reset_irq, Engine.reset_readReg_id, fun _ => Engine.reset_readReg, Engine.reset_busy, rfl,
    Engine.reset_buffers⟩

end Sys2Proof.Proofs
end
